-- ==== Sys2Proof/Word.lean ====
section
/-! DEFINITION. The machine's word types (spec/00_scope.md R8, spec/10_state.md R20): what the spec treats as bits. -/

namespace Sys2Proof

/-- One byte: a memory cell or a general register (R20, R60). -/
abbrev Byte := BitVec 8

/-- Sixteen bits: an instruction word, `sp` or a stacked return address (R68, R90; `sp` by log 11). What `I` and `pc` hold is
`Config.IndexWord` and `Config.PcWord`. -/
abbrev Word := BitVec 16

/-- The 4-bit register field `x` or `y`: all sixteen values name a register (R20, R91). -/
abbrev RegIx := BitVec 4

/-- The 4-bit immediate `n` (R91, R93). -/
abbrev Nibble := BitVec 4

/-- The 12-bit address immediate `nnn` (R91, R93). -/
abbrev Addr12 := BitVec 12

/-- The register number of `VF`, the flag register (R22). -/
abbrev flagReg : RegIx := 0xF#4

end Sys2Proof
end

