-- ==== Sys2Proof/Config.lean ====
section
/-! DEFINITION. The implementation parameters of spec/00_scope.md R7, at the spec's values, and the model's one free value:
the random oracle. -/

namespace Sys2Proof.Config

/-- `MEM_SIZE`: the address space is `0x000` to `0xFFF` (R7, R60). -/
abbrev memSize : Nat := 0x1000

/-- `FONT_BASE` (R7, R61). -/
abbrev fontBase : Nat := 0x000

/-- `FONT_END`, exclusive (R7, R61). -/
abbrev fontEnd : Nat := 0x050

/-- `GLYPH_BYTES` (R7). -/
abbrev glyphBytes : Nat := 5

/-- `STACK_BASE` (R7, R27). -/
abbrev stackBase : Nat := 0x050

/-- `STACK_REGION_END`, exclusive (R7, R61): a capacity is legal if a full stack's `sp` stays below it
(`wellFormedConfig`). -/
abbrev stackRegionEnd : Nat := 0x200

/-- `STACK_CAPACITY`, in return addresses. The source gives three figures; the spec takes 16
(spec/92_eei_decisions.md D3, spec/90_conflicts.md C2). DESIGN CHOICE of the spec, log 4: unsafe. -/
abbrev stackCapacity : Nat := 16

/-- `PROG_BASE`: where the ROM is copied and where execution starts (R7, R272). -/
abbrev progBase : Nat := 0x200

/-- `ROM_MAX` = `0x1000 - 0x200` (R7, R271). -/
abbrev romMax : Nat := 3584

/-- `I_WIDTH`, as the type of what `I` holds: 16 bits (R7, R24; the spec's decision D4). DESIGN CHOICE of the spec, log 13. -/
abbrev IndexWord : Type := BitVec 16

/-- `PC_WIDTH`, as the type of what `pc` holds: 16 bits (R7, R25; the spec's decision D5). DESIGN CHOICE of the spec, log 13:
unsafe. -/
abbrev PcWord : Type := BitVec 16

/-- The timer number type: exact rationals, for the timers and the elapsed times (R7, R30; the spec's decision D16). That a
timer is not negative is part of the machine's invariant. DESIGN CHOICE of the spec, log 7: unsafe. -/
abbrev TimerNumber : Type := Rat

/-- `FB_W` (R7, R28). -/
abbrev fbWidth : Nat := 64

/-- `FB_H` (R7, R28). -/
abbrev fbHeight : Nat := 32

/-- Framebuffer cells (R28). -/
abbrev fbCells : Nat := 2048

/-- `NKEYS` (R7, R29). -/
abbrev keyCount : Nat := 16

/-- `TIMER_RATE`: timer units per second of `dt` (R7, R241). -/
abbrev timerRate : TimerNumber := 60

/-- `MEM_INIT`: the byte every address outside font and ROM holds after a load (R26; the spec's decision D14).
DESIGN CHOICE of the spec, log 4: unsafe. -/
abbrev memInit : Byte := 0x00#8

/-- `REG_INIT`: `V0` to `VF` after a load (R23; the spec's decision D14). DESIGN CHOICE of the spec, log 4: unsafe. -/
abbrev regInit : Byte := 0x00#8

/-- The part of `REG_INIT` that is `I`'s: its value after a load (R24; the spec's decision D14). DESIGN CHOICE of the spec, log 4:
unsafe. -/
abbrev iInit : IndexWord := 0x0000#16

/-- Which register the two shifts read (R7 "shift source", D6, U16). -/
inductive ShiftSource where
  | vx
  | vy
deriving DecidableEq, Repr

/-- The shift source, `Vx` (R148, R150; the spec's decision D6). DESIGN CHOICE of the spec, log 4: unsafe. -/
abbrev shiftSource : ShiftSource := .vx

/-- Glyphs `0` to `7` of `FONT_TABLE` (R63). -/
def fontGlyphs0To7 : List Byte :=
  [0xF0#8, 0x90#8, 0x90#8, 0x90#8, 0xF0#8] ++
  [0x20#8, 0x60#8, 0x20#8, 0x20#8, 0x70#8] ++
  [0xF0#8, 0x10#8, 0xF0#8, 0x80#8, 0xF0#8] ++
  [0xF0#8, 0x10#8, 0xF0#8, 0x10#8, 0xF0#8] ++
  [0x90#8, 0x90#8, 0xF0#8, 0x10#8, 0x10#8] ++
  [0xF0#8, 0x80#8, 0xF0#8, 0x10#8, 0xF0#8] ++
  [0xF0#8, 0x80#8, 0xF0#8, 0x90#8, 0xF0#8] ++
  [0xF0#8, 0x10#8, 0x20#8, 0x40#8, 0x40#8]

/-- Glyphs `8` to `F` of `FONT_TABLE` (R63). -/
def fontGlyphs8ToF : List Byte :=
  [0xF0#8, 0x90#8, 0xF0#8, 0x90#8, 0xF0#8] ++
  [0xF0#8, 0x90#8, 0xF0#8, 0x10#8, 0xF0#8] ++
  [0xF0#8, 0x90#8, 0xF0#8, 0x90#8, 0x90#8] ++
  [0xE0#8, 0x90#8, 0xE0#8, 0x90#8, 0xE0#8] ++
  [0xF0#8, 0x80#8, 0x80#8, 0x80#8, 0xF0#8] ++
  [0xE0#8, 0x90#8, 0x90#8, 0x90#8, 0xE0#8] ++
  [0xF0#8, 0x80#8, 0xF0#8, 0x80#8, 0xF0#8] ++
  [0xF0#8, 0x80#8, 0xF0#8, 0x80#8, 0x80#8]

/-- `FONT_TABLE`, the 80 bytes at `0x000` to `0x04F` (R63; bytes by the spec's decision D2).
DESIGN CHOICE of the spec, log 4: unsafe. -/
def fontTable : List Byte := fontGlyphs0To7 ++ fontGlyphs8ToF

/-- The random oracle (R34, R154, D22): the byte the `k`-th draw of a run is given. It has no body, so nothing can be
proved of any byte it supplies and a claim holds for every oracle. FREE VALUE, log 2: safe. -/
opaque oracleByte : Nat → Byte

end Sys2Proof.Config
end

