-- ==== Sys2Proof/Syntax.lean ====
section
/-! DEFINITION. The instruction set: one constructor per row of spec/opcode_table.json, in the order of the opcode map
(spec/30_encoding.md R96). Operands are the encoding's own fields, so that every operand value a word can hold is an
operand value here and no other is. -/

namespace Sys2Proof

/-- The 34 instructions (R2, R96). -/
inductive Instr where
  /-- `00E0` CLS (R190) -/
  | cls
  /-- `00EE` RET (R120) -/
  | ret
  /-- `1nnn` JP nnn (R121) -/
  | jp (nnn : Addr12)
  /-- `2nnn` CALL nnn (R122) -/
  | call (nnn : Addr12)
  /-- `3xnn` SE Vx, nn (R124) -/
  | seImm (x : RegIx) (nn : Byte)
  /-- `4xnn` SNE Vx, nn (R125) -/
  | sneImm (x : RegIx) (nn : Byte)
  /-- `5xy0` SE Vx, Vy (R126) -/
  | seReg (x y : RegIx)
  /-- `6xnn` LD Vx, nn (R140) -/
  | ldImm (x : RegIx) (nn : Byte)
  /-- `7xnn` ADD Vx, nn (R141) -/
  | addImm (x : RegIx) (nn : Byte)
  /-- `8xy0` LD Vx, Vy (R142) -/
  | ldReg (x y : RegIx)
  /-- `8xy1` OR Vx, Vy (R143) -/
  | orReg (x y : RegIx)
  /-- `8xy2` AND Vx, Vy (R144) -/
  | andReg (x y : RegIx)
  /-- `8xy3` XOR Vx, Vy (R145) -/
  | xorReg (x y : RegIx)
  /-- `8xy4` ADD Vx, Vy (R146) -/
  | addReg (x y : RegIx)
  /-- `8xy5` SUB Vx, Vy (R147) -/
  | sub (x y : RegIx)
  /-- `8xy6` SHR Vx; `y` is a don't-care the word still holds (R148, R99) -/
  | shr (x y : RegIx)
  /-- `8xy7` SUBN Vx, Vy (R149) -/
  | subn (x y : RegIx)
  /-- `8xyE` SHL Vx; `y` is a don't-care the word still holds (R150, R99) -/
  | shl (x y : RegIx)
  /-- `9xy0` SNE Vx, Vy (R127) -/
  | sneReg (x y : RegIx)
  /-- `Annn` LD I, nnn (R170) -/
  | ldI (nnn : Addr12)
  /-- `Bnnn` JP V0, nnn (R123) -/
  | jpV0 (nnn : Addr12)
  /-- `Cxnn` RND Vx, nn (R154) -/
  | rnd (x : RegIx) (nn : Byte)
  /-- `Dxyn` DRW Vx, Vy, n (R191) -/
  | drw (x y : RegIx) (n : Nibble)
  /-- `Ex9E` SKP Vx (R200) -/
  | skp (x : RegIx)
  /-- `ExA1` SKNP Vx (R201) -/
  | sknp (x : RegIx)
  /-- `Fx07` LD Vx, DT (R202) -/
  | ldVxDT (x : RegIx)
  /-- `Fx0A` LD Vx, K (R203) -/
  | ldVxK (x : RegIx)
  /-- `Fx15` LD DT, Vx (R204) -/
  | ldDT (x : RegIx)
  /-- `Fx18` LD ST, Vx (R205) -/
  | ldST (x : RegIx)
  /-- `Fx1E` ADD I, Vx (R171) -/
  | addI (x : RegIx)
  /-- `Fx29` LD F, Vx (R172) -/
  | ldF (x : RegIx)
  /-- `Fx33` LD B, Vx (R173) -/
  | ldB (x : RegIx)
  /-- `Fx55` LD [I], Vx (R175) -/
  | storeRegs (x : RegIx)
  /-- `Fx65` LD Vx, [I] (R176) -/
  | loadRegs (x : RegIx)
deriving DecidableEq, Repr

end Sys2Proof
end

