-- ==== Sys2Proof/WellFormed.lean ====
section
/-! DEFINITION. What is well formed. An `Instr` needs no check: each operand is a bit vector of exactly the width its field has
in the word, and the spec calls every value of every field legal (spec/10_state.md R20, spec/30_encoding.md R93, R99), so no
ill-formed `Instr` can be written. What the spec does check is an instruction WORD against the opcode map (R96) and what the
HOST hands to the core (spec/60_exceptions.md R246, spec/70_reset_and_hazards.md R271). -/

namespace Sys2Proof

/-- One row of the opcode map: a word `w` selects it when `w & mask = pattern` (R96). -/
structure OpcodeRow where
  mask : Word
  pattern : Word
deriving DecidableEq, Repr

/-- Rows `00E0` to `7xnn` of the opcode map (R96). -/
def opcodeRowsLow : List OpcodeRow :=
  [⟨0xFFFF#16, 0x00E0#16⟩, ⟨0xFFFF#16, 0x00EE#16⟩, ⟨0xF000#16, 0x1000#16⟩, ⟨0xF000#16, 0x2000#16⟩,
   ⟨0xF000#16, 0x3000#16⟩, ⟨0xF000#16, 0x4000#16⟩, ⟨0xF00F#16, 0x5000#16⟩, ⟨0xF000#16, 0x6000#16⟩,
   ⟨0xF000#16, 0x7000#16⟩]

/-- Rows `8xy0` to `9xy0` of the opcode map (R96). -/
def opcodeRowsRegReg : List OpcodeRow :=
  [⟨0xF00F#16, 0x8000#16⟩, ⟨0xF00F#16, 0x8001#16⟩, ⟨0xF00F#16, 0x8002#16⟩, ⟨0xF00F#16, 0x8003#16⟩,
   ⟨0xF00F#16, 0x8004#16⟩, ⟨0xF00F#16, 0x8005#16⟩, ⟨0xF00F#16, 0x8006#16⟩, ⟨0xF00F#16, 0x8007#16⟩,
   ⟨0xF00F#16, 0x800E#16⟩, ⟨0xF00F#16, 0x9000#16⟩]

/-- Rows `Annn` to `Fx65` of the opcode map (R96). -/
def opcodeRowsHigh : List OpcodeRow :=
  [⟨0xF000#16, 0xA000#16⟩, ⟨0xF000#16, 0xB000#16⟩, ⟨0xF000#16, 0xC000#16⟩, ⟨0xF000#16, 0xD000#16⟩,
   ⟨0xF0FF#16, 0xE09E#16⟩, ⟨0xF0FF#16, 0xE0A1#16⟩, ⟨0xF0FF#16, 0xF007#16⟩, ⟨0xF0FF#16, 0xF00A#16⟩,
   ⟨0xF0FF#16, 0xF015#16⟩, ⟨0xF0FF#16, 0xF018#16⟩, ⟨0xF0FF#16, 0xF01E#16⟩, ⟨0xF0FF#16, 0xF029#16⟩,
   ⟨0xF0FF#16, 0xF033#16⟩, ⟨0xF0FF#16, 0xF055#16⟩, ⟨0xF0FF#16, 0xF065#16⟩]

/-- The opcode map, 34 rows (R96). It is written from the map's `match` and `mask` columns; the decoder is written from R95,
by fields. That the two agree is an obligation. -/
def opcodeRows : List OpcodeRow := opcodeRowsLow ++ opcodeRowsRegReg ++ opcodeRowsHigh

/-- `w` selects the row. -/
def OpcodeRow.selects (r : OpcodeRow) (w : Word) : Bool := w &&& r.mask == r.pattern

/-- `w` is the word of some instruction: it selects a row of the map (R94, R96). -/
def wellFormedWord (w : Word) : Bool := opcodeRows.any (·.selects w)

/-- No word selects both rows (R96, "the rows are disjoint"): they differ in a bit both of them fix. -/
def OpcodeRow.disjoint (r q : OpcodeRow) : Bool := r.pattern &&& q.mask != q.pattern &&& r.mask

/-- The parameters fit one another (R7): the capacity is one from 1 to 215, so that a full stack's `sp` stays inside the stack
region; the font table fills the font region, sixteen glyphs of it; the three regions follow one another to the end of
memory; and the ROM's limit is the user region. -/
def wellFormedConfig : Bool :=
  decide (1 ≤ Config.stackCapacity ∧ Config.stackCapacity ≤ 215 ∧
    Config.stackBase + 2 * Config.stackCapacity < Config.stackRegionEnd ∧
    Config.fontTable.length = Config.fontEnd - Config.fontBase ∧ Config.fontTable.length = 16 * Config.glyphBytes ∧
    Config.stackBase = Config.fontEnd ∧ Config.progBase = Config.stackRegionEnd ∧
    Config.romMax = Config.memSize - Config.progBase)

/-- The ROM fits the user region (R271). -/
def wellFormedRom (rom : List Byte) : Bool := decide (rom.length ≤ Config.romMax)

/-- The key number names one of the sixteen lines (R246). -/
def wellFormedKey (k : Nat) : Bool := decide (k < Config.keyCount)

/-- The elapsed time is not negative (R246). -/
def wellFormedElapsed (dt : Config.TimerNumber) : Bool := decide (0 ≤ dt)

end Sys2Proof
end

