-- ==== Sys2Proof/Decode.lean ====
section
/-! DEFINITION. Instruction decoding and encoding (spec/30_encoding.md R90 to R98): a pure, total function of the 16-bit word
that rejects every illegal word by name, and the encoder written from the same opcode map. -/

namespace Sys2Proof

/-- Why a word, or a byte list, is not an instruction. -/
inductive DecodeError where
  /-- `0x0nnn` other than `0x00E0` and `0x00EE` (R97) -/
  | nativeCall (w : Word)
  /-- a word with `w[15:12] ≠ 0` that no row of the opcode map selects (R98) -/
  | unknown (w : Word)
  /-- fewer than two bytes: no instruction word (R90) -/
  | truncated
deriving DecidableEq, Repr

/-- The big-endian 16-bit value of two bytes, the first at the lower address (R62). -/
def wordOfBytes (hi lo : Byte) : Word := hi ++ lo

/-- Bits 15 to 8 of a word. -/
def highByte (w : Word) : Byte := w.extractLsb' 8 8

/-- Bits 7 to 0 of a word. -/
def lowByte (w : Word) : Byte := w.extractLsb' 0 8

/-- `op` = `w[15:12]` (R91). -/
def fieldOp (w : Word) : BitVec 4 := w.extractLsb' 12 4

/-- `x` = `w[11:8]` (R91). -/
def fieldX (w : Word) : RegIx := w.extractLsb' 8 4

/-- `y` = `w[7:4]` (R91). -/
def fieldY (w : Word) : RegIx := w.extractLsb' 4 4

/-- `n` = `w[3:0]` (R91). -/
def fieldN (w : Word) : Nibble := w.extractLsb' 0 4

/-- `nn` = `w[7:0]` (R91). -/
def fieldNN (w : Word) : Byte := w.extractLsb' 0 8

/-- `nnn` = `w[11:0]` (R91). -/
def fieldNNN (w : Word) : Addr12 := w.extractLsb' 0 12

/-- Words with `op = 0` (R95, R97). -/
def decodeOp0 (w : Word) : Except DecodeError Instr :=
  if w = 0x00E0#16 then .ok .cls
  else if w = 0x00EE#16 then .ok .ret
  else .error (.nativeCall w)

/-- Words with `op = 5`: legal only with `n = 0` (R95, R98). -/
def decodeOp5 (w : Word) : Except DecodeError Instr :=
  if fieldN w = 0x0#4 then .ok (.seReg (fieldX w) (fieldY w)) else .error (.unknown w)

/-- Words with `op = 9`: legal only with `n = 0` (R95, R98). -/
def decodeOp9 (w : Word) : Except DecodeError Instr :=
  if fieldN w = 0x0#4 then .ok (.sneReg (fieldX w) (fieldY w)) else .error (.unknown w)

/-- Words with `op = 8`, selected by `n` (R95, R98). -/
def decodeOp8 (w : Word) : Except DecodeError Instr :=
  match fieldN w with
  | 0x0#4 => .ok (.ldReg (fieldX w) (fieldY w))
  | 0x1#4 => .ok (.orReg (fieldX w) (fieldY w))
  | 0x2#4 => .ok (.andReg (fieldX w) (fieldY w))
  | 0x3#4 => .ok (.xorReg (fieldX w) (fieldY w))
  | 0x4#4 => .ok (.addReg (fieldX w) (fieldY w))
  | 0x5#4 => .ok (.sub (fieldX w) (fieldY w))
  | 0x6#4 => .ok (.shr (fieldX w) (fieldY w))
  | 0x7#4 => .ok (.subn (fieldX w) (fieldY w))
  | 0xE#4 => .ok (.shl (fieldX w) (fieldY w))
  | _ => .error (.unknown w)

/-- Words with `op = 0xE`, selected by `nn` (R95, R98). -/
def decodeOpE (w : Word) : Except DecodeError Instr :=
  match fieldNN w with
  | 0x9E#8 => .ok (.skp (fieldX w))
  | 0xA1#8 => .ok (.sknp (fieldX w))
  | _ => .error (.unknown w)

/-- Words with `op = 0xF`, selected by `nn` (R95, R98). -/
def decodeOpF (w : Word) : Except DecodeError Instr :=
  match fieldNN w with
  | 0x07#8 => .ok (.ldVxDT (fieldX w))
  | 0x0A#8 => .ok (.ldVxK (fieldX w))
  | 0x15#8 => .ok (.ldDT (fieldX w))
  | 0x18#8 => .ok (.ldST (fieldX w))
  | 0x1E#8 => .ok (.addI (fieldX w))
  | 0x29#8 => .ok (.ldF (fieldX w))
  | 0x33#8 => .ok (.ldB (fieldX w))
  | 0x55#8 => .ok (.storeRegs (fieldX w))
  | 0x65#8 => .ok (.loadRegs (fieldX w))
  | _ => .error (.unknown w)

/-- The decoder (R95): it depends on the word alone (R94). The last arm answers no word, since the fifteen before it and
`0xF` are all the values of `op`. -/
def decodeWord (w : Word) : Except DecodeError Instr :=
  match fieldOp w with
  | 0x0#4 => decodeOp0 w
  | 0x1#4 => .ok (.jp (fieldNNN w))
  | 0x2#4 => .ok (.call (fieldNNN w))
  | 0x3#4 => .ok (.seImm (fieldX w) (fieldNN w))
  | 0x4#4 => .ok (.sneImm (fieldX w) (fieldNN w))
  | 0x5#4 => decodeOp5 w
  | 0x6#4 => .ok (.ldImm (fieldX w) (fieldNN w))
  | 0x7#4 => .ok (.addImm (fieldX w) (fieldNN w))
  | 0x8#4 => decodeOp8 w
  | 0x9#4 => decodeOp9 w
  | 0xA#4 => .ok (.ldI (fieldNNN w))
  | 0xB#4 => .ok (.jpV0 (fieldNNN w))
  | 0xC#4 => .ok (.rnd (fieldX w) (fieldNN w))
  | 0xD#4 => .ok (.drw (fieldX w) (fieldY w) (fieldN w))
  | 0xE#4 => decodeOpE w
  | 0xF#4 => decodeOpF w
  | _ => .error (.unknown w)

/-- Decoding from a byte list: the first two bytes, high byte first, are the instruction; the rest is returned (R62, R90). -/
def decodeBytes : List Byte → Except DecodeError (Instr × List Byte)
  | hi :: lo :: rest =>
    match decodeWord (wordOfBytes hi lo) with
    | .ok i => .ok (i, rest)
    | .error e => .error e
  | _ => .error .truncated

/-- A word of formats `XY` and `XYN` from its four nibbles, `op` highest (R92). -/
def packXYN (op x y n : BitVec 4) : Word := op ++ x ++ y ++ n

/-- A word of formats `XNN` and `X` (R92). -/
def packXNN (op x : BitVec 4) (nn : Byte) : Word := op ++ x ++ nn

/-- A word of format `NNN` (R92). -/
def packNNN (op : BitVec 4) (nnn : Addr12) : Word := op ++ nnn

/-- The encoder, from the opcode map (R96). -/
def encode : Instr → Word
  | .cls => 0x00E0#16
  | .ret => 0x00EE#16
  | .jp nnn => packNNN 0x1#4 nnn
  | .call nnn => packNNN 0x2#4 nnn
  | .seImm x nn => packXNN 0x3#4 x nn
  | .sneImm x nn => packXNN 0x4#4 x nn
  | .seReg x y => packXYN 0x5#4 x y 0x0#4
  | .ldImm x nn => packXNN 0x6#4 x nn
  | .addImm x nn => packXNN 0x7#4 x nn
  | .ldReg x y => packXYN 0x8#4 x y 0x0#4
  | .orReg x y => packXYN 0x8#4 x y 0x1#4
  | .andReg x y => packXYN 0x8#4 x y 0x2#4
  | .xorReg x y => packXYN 0x8#4 x y 0x3#4
  | .addReg x y => packXYN 0x8#4 x y 0x4#4
  | .sub x y => packXYN 0x8#4 x y 0x5#4
  | .shr x y => packXYN 0x8#4 x y 0x6#4
  | .subn x y => packXYN 0x8#4 x y 0x7#4
  | .shl x y => packXYN 0x8#4 x y 0xE#4
  | .sneReg x y => packXYN 0x9#4 x y 0x0#4
  | .ldI nnn => packNNN 0xA#4 nnn
  | .jpV0 nnn => packNNN 0xB#4 nnn
  | .rnd x nn => packXNN 0xC#4 x nn
  | .drw x y n => packXYN 0xD#4 x y n
  | .skp x => packXNN 0xE#4 x 0x9E#8
  | .sknp x => packXNN 0xE#4 x 0xA1#8
  | .ldVxDT x => packXNN 0xF#4 x 0x07#8
  | .ldVxK x => packXNN 0xF#4 x 0x0A#8
  | .ldDT x => packXNN 0xF#4 x 0x15#8
  | .ldST x => packXNN 0xF#4 x 0x18#8
  | .addI x => packXNN 0xF#4 x 0x1E#8
  | .ldF x => packXNN 0xF#4 x 0x29#8
  | .ldB x => packXNN 0xF#4 x 0x33#8
  | .storeRegs x => packXNN 0xF#4 x 0x55#8
  | .loadRegs x => packXNN 0xF#4 x 0x65#8

/-- The two bytes of an instruction as memory holds them, high byte at the lower address (R62, R90). -/
def encodeBytes (i : Instr) : List Byte := [highByte (encode i), lowByte (encode i)]

/-- The instruction word that spec/opcode_table.json's numbering gives: bit 0 least significant, every bit from `nbits` up 0.
Every row of the table has 16 bits and every instruction is one word (R90). -/
def tableWord (nbits w : Nat) : Word := BitVec.ofNat 16 (w % 2 ^ nbits)

/-- What the decoder reads from an instruction whose bits, numbered as the opcode table numbers them, are `w`: the word laid
out in memory order, high byte first. -/
def decodeTableWord (nbits w : Nat) : Option Instr :=
  match decodeBytes [highByte (tableWord nbits w), lowByte (tableWord nbits w)] with
  | .ok (i, _) => some i
  | .error _ => none

end Sys2Proof
end

