-- ==== Sys2Proof/Machine/State.lean ====
section
/-! DEFINITION. The machine's state (spec/10_state.md), its faults (spec/60_exceptions.md R220), the model's refusals, and the
state after reset (spec/70_reset_and_hazards.md R270). Plain data. -/

namespace Sys2Proof.Machine

/-- The spec's faults, codes 1 to 9 (R220), each with the value it records. A tick that raises one LATCHES it in
`State.fault` and is a NEXT state (R225: entry is `FAULT <-` the fault, nothing else changes); `step` and `exec` never answer
`Host.Outcome.fault`. Latching is safe: a faulted core does nothing more (R226). -/
inductive Fault where
  /-- code 1, the bad `pc`: raised by the fetch of a tick with `pc ≥ 0xFFF` (R64). Safe. -/
  | fetchBounds (pc : Config.PcWord)
  /-- code 2, the word: raised by decode of `0x0nnn` other than `00E0`, `00EE` (R97). Safe. -/
  | decodeNativeCall (w : Word)
  /-- code 3, the word: raised by decode of an unassigned word (R98). Safe. -/
  | decodeUnknown (w : Word)
  /-- code 4, `sp`: raised by CALL with the stack full (R69, R122). Safe. -/
  | stackOverflow (sp : Word)
  /-- code 5, `sp`: raised by RET with the stack empty (R70, R120). Safe. -/
  | stackUnderflow (sp : Word)
  /-- code 6, the lowest offending address: raised by DRW, LD B, LD [I], LD Vx,[I] (R66). Safe. -/
  | memoryBounds (a : Nat)
  /-- code 7, the lowest offending address: raised by LD B, LD [I] (R67). Safe. -/
  | fontWrite (a : Nat)
  /-- code 8, the register's value: raised by SKP, SKNP (R200, R201). Safe. -/
  | keyIndex (k : Byte)
  /-- code 9, the ROM's length: the answer of a load that is refused, never latched (R271). Safe. -/
  | romTooLarge (len : Nat)
deriving DecidableEq, Repr

/-- What the model refuses: calls to which the spec gives no meaning. -/
inductive Refusal where
  /-- An instruction whose arm of `exec` has no meaning yet. Safe. No arm answers it now. -/
  | notModelled (mnemonic : String)
  /-- `set_key` or `clear_key` with `k > 15`: "such a call has no meaning and a model refuses it" (R246, D25). Raised by the
  host operations `pressKey` and `releaseKey`. Safe. -/
  | keyOutOfRange (k : Nat)
  /-- `update_timers` with `dt < 0` (R246, D25). Raised by the host operation `updateTimers`. Safe. -/
  | negativeElapsed (dt : Config.TimerNumber)
deriving DecidableEq, Repr

/-- `MEM`, as (address, byte) pairs: only the bytes that differ from the reset contents are listed, in rising address order
(`Memory.wf`). -/
abbrev Memory := List Host.Cell

/-- Everything the spec gives the machine (R20 to R31), and the count of oracle bytes drawn. -/
structure State where
  /-- `V0` to `VF` (R20) -/
  v : Vector Byte 16
  /-- `I` (R24) -/
  i : Config.IndexWord
  /-- `pc` (R25) -/
  pc : Config.PcWord
  /-- `sp`, the address of the next free stack slot (R27) -/
  sp : Word
  /-- `MEM` (R26) -/
  mem : Memory
  /-- `FB`, row-major, cell `y*64 + x` (R28) -/
  fb : Vector Bool 2048
  /-- `KEY` (R29) -/
  key : Vector Bool 16
  /-- `DT`, an exact rational (R30) -/
  dt : Config.TimerNumber
  /-- `ST`, an exact rational (R30) -/
  st : Config.TimerNumber
  /-- `FAULT` (R31) -/
  fault : Option Fault
  /-- The MODEL's own field, not the spec's: how many oracle bytes have been drawn, so that each RND gets a fresh free byte
  (R34, R154). Log 2. -/
  draws : Nat
deriving DecidableEq, Repr

/-- The machine right after reset with an empty ROM (R270, R272): font in place, all other memory zero, so memory lists
nothing. `V`, `I` and the zero fill are the spec's decision D14 (log 4); `draws` is the model's own (log 2). -/
def State.reset : State where
  v := Vector.replicate 16 Config.regInit
  i := Config.iInit
  pc := 0x0200#16
  sp := 0x0050#16
  mem := []
  fb := Vector.replicate 2048 false
  key := Vector.replicate 16 false
  dt := 0
  st := 0
  fault := none
  draws := 0

end Sys2Proof.Machine
end

