-- ==== Sys2Proof/Machine/Ops.lean ====
section
/-! DEFINITION. The named operations on memory, registers, the call stack, the framebuffer and the key latch, the four outcomes
of an instruction (spec/00_scope.md R10), and taking a fault (spec/60_exceptions.md R223, R225). -/

namespace Sys2Proof.Machine

/-! ### Memory (spec/20_memory.md) -/

/-- What an address that memory does not list reads as: the reset contents, the font below `0x050` and zero elsewhere
(R26, R63). -/
def Memory.background (a : Nat) : Byte :=
  if a < Config.fontEnd then Config.fontTable.getD a Config.memInit else Config.memInit

/-- The byte at an address. -/
def Memory.read : Memory → Nat → Byte
  | [], a => Memory.background a
  | (k, b) :: rest, a => if a = k then b else Memory.read rest a

/-- List the byte `b` at `a`, in address order. -/
def Memory.insert : Memory → Nat → Byte → Memory
  | [], a, b => [(a, b)]
  | (k, c) :: rest, a, b =>
    if a < k then (a, b) :: (k, c) :: rest
    else if a = k then (a, b) :: rest
    else (k, c) :: Memory.insert rest a b

/-- List nothing at `a`. -/
def Memory.erase (m : Memory) (a : Nat) : Memory := m.filter fun c => c.1 != a

/-- Store the byte `b` at `a`, keeping the canonical form: a byte equal to what an unlisted address reads as is not listed.
The bounds and font checks come before, in `checkRead` and `checkWrite`. -/
def Memory.write (m : Memory) (a : Nat) (b : Byte) : Memory :=
  if b = Memory.background a then m.erase a else m.insert a b

/-- Store bytes at ascending addresses from `a` (R72). -/
def Memory.writeBytes : Memory → Nat → List Byte → Memory
  | m, _, [] => m
  | m, a, b :: bs => Memory.writeBytes (m.write a b) (a + 1) bs

/-- The addresses listed rise strictly. -/
def Memory.sorted : Memory → Bool
  | [] => true
  | (k, _) :: rest => rest.all (fun c => decide (k < c.1)) && Memory.sorted rest

/-- The canonical form: addresses strictly rising, no entry equal to what an unlisted address reads as. -/
def Memory.wf (m : Memory) : Bool :=
  Memory.sorted m && m.all fun c => c.2 != Memory.background c.1

/-- Only bytes of the address space are listed, and none of the font region (R60, R67). -/
def Memory.inWritableSpace (m : Memory) : Bool :=
  m.all fun c => decide (Config.fontEnd ≤ c.1) && decide (c.1 < Config.memSize)

/-- The bounds check of a data access to `len` bytes from `a`: `MemoryBounds` with the lowest address above `0xFFF`. The
addresses are unbounded naturals, nothing wraps (R66, R174). -/
def checkRead (a len : Nat) : Option Fault :=
  if len ≠ 0 ∧ Config.memSize < a + len then some (.memoryBounds (max a Config.memSize)) else none

/-- The checks of a data write to `len` bytes from `a`: bounds first, then the read-only font (R67, R174). -/
def checkWrite (a len : Nat) : Option Fault :=
  match checkRead a len with
  | some f => some f
  | none => if len ≠ 0 ∧ a < Config.fontEnd then some (.fontWrite a) else none

/-! ### The register file and the other registers (spec/10_state.md) -/

/-- `V[x]` (R20). -/
def State.reg (s : State) (x : RegIx) : Byte := s.v[x.toNat]'x.isLt

/-- `V[x] <- b` (R20). -/
def State.setReg (s : State) (x : RegIx) (b : Byte) : State := { s with v := s.v.set x.toNat b x.isLt }

/-- Replace the whole register file (R176). -/
def State.setRegs (s : State) (v : Vector Byte 16) : State := { s with v := v }

/-- `I <- a` (R24). -/
def State.setI (s : State) (a : Config.IndexWord) : State := { s with i := a }

/-- `sp <- a` (R27). -/
def State.setSp (s : State) (a : Word) : State := { s with sp := a }

/-- Replace memory. -/
def State.setMem (s : State) (m : Memory) : State := { s with mem := m }

/-- Replace the framebuffer. -/
def State.setFb (s : State) (fb : Vector Bool 2048) : State := { s with fb := fb }

/-- Replace the key latch (host only, R29). -/
def State.setKeys (s : State) (key : Vector Bool 16) : State := { s with key := key }

/-- `DT <- t` (R30). -/
def State.setDT (s : State) (t : Config.TimerNumber) : State := { s with dt := t }

/-- `ST <- t` (R30). -/
def State.setST (s : State) (t : Config.TimerNumber) : State := { s with st := t }

/-- One more oracle byte has been drawn (R154). -/
def State.countDraw (s : State) : State := { s with draws := s.draws + 1 }

/-! ### The four outcomes (spec/00_scope.md R10) and the fault entry -/

/-- Outcome `Next`: `pc += 2`. -/
def State.next (s : State) : State := { s with pc := s.pc + 2#16 }

/-- Outcome `Skip`: `pc += 4`. -/
def State.skip (s : State) : State := { s with pc := s.pc + 4#16 }

/-- Outcome `Jump(t)`: `pc = t`; the target is not checked (R128). -/
def State.jump (s : State) (t : Config.PcWord) : State := { s with pc := t }

/-- Outcome `Halt`: nothing changes (R203). -/
def State.halt (s : State) : State := s

/-- Fault entry: `FAULT <-` the fault with its recorded value; nothing else changes, and there is no return but a load
(R223, R225, R227). -/
def State.takeFault (s : State) (f : Fault) : State := { s with fault := some f }

/-- Turn the result of an instruction whose checks may raise a fault into the step's next state: the state it computed, or the
state BEFORE the instruction with the fault latched (R11, R223). -/
def settle (s : State) : Except Fault State → Host.Outcome State Fault Refusal
  | .ok t => .next t
  | .error f => .next (s.takeFault f)

/-! ### The call stack (spec/20_memory.md section 4) -/

/-- `push_stack`: overflow is checked before the write (R69). For `sp` in the range of R27 the store passes `checkWrite`; out of
that range, in states no run reaches, `MemWrite`'s own checks apply (R66, R67; log 6). -/
def State.push (s : State) (ret : Word) : Except Fault State :=
  if Config.stackCapacity ≤ (s.sp.toNat - Config.stackBase) / 2 then .error (.stackOverflow s.sp)
  else
    match checkWrite s.sp.toNat 2 with
    | some f => .error f
    | none => .ok ((s.setMem (s.mem.writeBytes s.sp.toNat [highByte ret, lowByte ret])).setSp (s.sp + 2#16))

/-- `pop_stack`: underflow when the pointer would drop below `0x050`; the popped bytes stay in memory (R70). -/
def State.pop (s : State) : Except Fault (Word × State) :=
  if s.sp.toNat < Config.stackBase + 2 then .error (.stackUnderflow s.sp)
  else
    match checkRead (s.sp.toNat - 2) 2 with
    | some f => .error f
    | none =>
      .ok (wordOfBytes (s.mem.read (s.sp.toNat - 2)) (s.mem.read (s.sp.toNat - 1)), s.setSp (s.sp - 2#16))

/-! ### Framebuffer and keys -/

/-- The framebuffer cell of column `cx` and row `cy`, `cy*64 + cx`, both reduced with wraparound (R28, R191). -/
def cellIndex (cx cy : Nat) : Fin 2048 :=
  ⟨(cy % Config.fbHeight) * Config.fbWidth + cx % Config.fbWidth, by
    have h1 : cy % 32 < 32 := Nat.mod_lt _ (by decide)
    have h2 : cx % 64 < 64 := Nat.mod_lt _ (by decide)
    show cy % 32 * 64 + cx % 64 < 2048
    omega⟩

/-- Every framebuffer cell unset. -/
def clearCells : Vector Bool 2048 := Vector.replicate 2048 false

/-- Every key unset. -/
def noKeys : Vector Bool 16 := Vector.replicate 16 false

/-- `check_key(k)`: the level of line `k`; a number above 15 names no line (R29, R245). -/
def State.keyLevel (s : State) (k : Nat) : Bool := if h : k < 16 then s.key[k]'h else false

/-- `any_key()`: the lowest-indexed set key, or none (R203, R245). -/
def State.anyKey (s : State) : Option Nat := (List.range Config.keyCount).find? fun k => s.keyLevel k

end Sys2Proof.Machine
end

