-- ==== Sys2Proof/Machine/Operands.lean ====
section
/-! DEFINITION. Operand forms: addresses, targets, register blocks, BCD digits, the glyph address, the shift operand, sprite bits
and the 8-bit timer view. -/

namespace Sys2Proof.Machine

/-- `zext_16(nnn)` written to `pc` (spec/30_encoding.md R93). -/
def addrOfImm (nnn : Addr12) : Config.PcWord := nnn.zeroExtend _

/-- `zext_16(nnn)` written to `I` (spec/30_encoding.md R93). -/
def indexOfImm (nnn : Addr12) : Config.IndexWord := nnn.zeroExtend _

/-- The target of the indexed jump, `zext_16(nnn) + zext_16(V0)`; it cannot wrap (spec/40_flow.md R123). -/
def indexedTarget (s : State) (nnn : Addr12) : Config.PcWord := addrOfImm nnn + (s.reg 0x0#4).zeroExtend _

/-- The effective address `I + k`, an unbounded natural (spec/42_index_memory.md R174). -/
def State.dataAddr (s : State) (k : Nat) : Nat := s.i.toNat + k

/-- `I + zext_16(V[x])` modulo `2^16` (R171). -/
def indexSum (s : State) (x : RegIx) : Config.IndexWord := s.i + (s.reg x).zeroExtend _

/-- The font address of a digit, `digit * 5`, unmasked (R172, D10). -/
def glyphAddr (digit : Byte) : Config.IndexWord := digit.zeroExtend _ * BitVec.ofNat _ Config.glyphBytes

/-- Hundreds, tens and ones, one byte each (R173). -/
def bcdDigits (b : Byte) : List Byte :=
  [BitVec.ofNat 8 (b.toNat / 100), BitVec.ofNat 8 (b.toNat / 10 % 10), BitVec.ofNat 8 (b.toNat % 10)]

/-- The number of registers a block move names, `x + 1` (R175, R176). -/
def blockLen (x : RegIx) : Nat := x.toNat + 1

/-- `V[0]` to `V[x]`, in order (R175). -/
def State.regBlock (s : State) (x : RegIx) : List Byte := s.v.toList.take (blockLen x)

/-- `V[k] <- MemRead(I + k, 1)` for `k` from 0 to `x`; the registers above `x` keep their values (R176). -/
def State.loadedRegs (s : State) (x : RegIx) : Vector Byte 16 :=
  Vector.ofFn fun k : Fin 16 => if k.val ≤ x.toNat then s.mem.read (s.dataAddr k.val) else s.v[k]

/-- The register a shift reads (R148, R150; `Config.shiftSource`, D6). -/
def shiftOperand (s : State) (x y : RegIx) : Byte :=
  match Config.shiftSource with
  | .vx => s.reg x
  | .vy => s.reg y

/-- Is the sprite opaque at row offset `row`, column offset `col`: bit `7 - col` of the row's byte (spec/43_display.md
R193). -/
def spriteBit (s : State) (row col : Nat) : Bool := (s.mem.read (s.dataAddr row)).getLsbD (7 - col)

/-- The (row, column) offsets of an `n`-row sprite, in the order R191 draws them. -/
def spritePixels (n : Nat) : List (Nat × Nat) :=
  (List.range n).flatMap fun row => (List.range 8).map fun col => (row, col)

/-- The 8-bit view of a timer, `floor` (spec/10_state.md R30, spec/44_keys_timers.md R202). Within `0 ≤ t ≤ 255`, which the
invariant keeps, nothing is reduced. -/
def timerView (t : Config.TimerNumber) : Byte := BitVec.ofNat 8 t.floor.toNat

/-- The integer 0 to 255 a timer is loaded with (R204, R205). -/
def timerLoad (b : Byte) : Config.TimerNumber := (b.toNat : Rat)

end Sys2Proof.Machine
end

