-- ==== Sys2Proof/Machine/Flags.lean ====
section
/-! DEFINITION. The values the six flag-writing instructions give `VF` (spec/10_state.md R22) and the order of their writes
(spec/41_alu.md R152). -/

namespace Sys2Proof.Machine

/-- A flag as the byte `VF` holds, 1 or 0. -/
def flagByte (c : Bool) : Byte := if c then 1#8 else 0#8

/-- Carry out of an addition: the 9-bit sum exceeds 255 (R146). -/
def addCarry (a b : Byte) : Bool := decide (255 < a.toNat + b.toNat)

/-- No borrow in `a - b`: minuend at least the subtrahend (R147, R149). -/
def subNoBorrow (a b : Byte) : Bool := decide (b.toNat ≤ a.toNat)

/-- The bit a right shift moves out, bit 0 (R148). -/
def shrBitOut (a : Byte) : Bool := a.getLsbD 0

/-- The bit a left shift moves out, bit 7 (R150). -/
def shlBitOut (a : Byte) : Bool := a.getLsbD 7

/-- `V[x] <- r`, then `VF <- flag`: the flag is written last, so it wins when `x = 15` (R152, D7). -/
def State.setResultAndFlag (s : State) (x : RegIx) (r : Byte) (c : Bool) : State :=
  (s.setReg x r).setReg flagReg (flagByte c)

end Sys2Proof.Machine
end

