-- ==== Sys2Proof/Machine/Alu.lean ====
section
/-! DEFINITION. Register loads, arithmetic, logic, shifts and the random byte (spec/41_alu.md). Every outcome is `Next` and none
of these can fault. -/

namespace Sys2Proof.Machine

/-- LD Vx, nn (R140). -/
def execLdImm (x : RegIx) (nn : Byte) (s : State) : Host.Outcome State Fault Refusal :=
  .next (s.setReg x nn).next

/-- ADD Vx, nn (R141): wraps, writes no flag. -/
def execAddImm (x : RegIx) (nn : Byte) (s : State) : Host.Outcome State Fault Refusal :=
  .next (s.setReg x (s.reg x + nn)).next

/-- LD Vx, Vy (R142). -/
def execLdReg (x y : RegIx) (s : State) : Host.Outcome State Fault Refusal :=
  .next (s.setReg x (s.reg y)).next

/-- OR Vx, Vy (R143; `VF` unchanged, D8). -/
def execOr (x y : RegIx) (s : State) : Host.Outcome State Fault Refusal :=
  .next (s.setReg x (s.reg x ||| s.reg y)).next

/-- AND Vx, Vy (R144; `VF` unchanged, D8). -/
def execAnd (x y : RegIx) (s : State) : Host.Outcome State Fault Refusal :=
  .next (s.setReg x (s.reg x &&& s.reg y)).next

/-- XOR Vx, Vy (R145; `VF` unchanged, D8). -/
def execXor (x y : RegIx) (s : State) : Host.Outcome State Fault Refusal :=
  .next (s.setReg x (s.reg x ^^^ s.reg y)).next

/-- ADD Vx, Vy (R146): `VF` is the carry out. -/
def execAddReg (x y : RegIx) (s : State) : Host.Outcome State Fault Refusal :=
  .next (s.setResultAndFlag x (s.reg x + s.reg y) (addCarry (s.reg x) (s.reg y))).next

/-- SUB Vx, Vy (R147): `Vx - Vy`, `VF` is 1 for no borrow. -/
def execSub (x y : RegIx) (s : State) : Host.Outcome State Fault Refusal :=
  .next (s.setResultAndFlag x (s.reg x - s.reg y) (subNoBorrow (s.reg x) (s.reg y))).next

/-- SUBN Vx, Vy (R149): `Vy - Vx` to `Vx`, `VF` is 1 for no borrow. -/
def execSubn (x y : RegIx) (s : State) : Host.Outcome State Fault Refusal :=
  .next (s.setResultAndFlag x (s.reg y - s.reg x) (subNoBorrow (s.reg y) (s.reg x))).next

/-- SHR Vx (R148): logical, one bit; `VF` is the bit shifted out. -/
def execShr (x y : RegIx) (s : State) : Host.Outcome State Fault Refusal :=
  .next (s.setResultAndFlag x (shiftOperand s x y >>> 1) (shrBitOut (shiftOperand s x y))).next

/-- SHL Vx (R150): one bit; `VF` is the bit shifted out. -/
def execShl (x y : RegIx) (s : State) : Host.Outcome State Fault Refusal :=
  .next (s.setResultAndFlag x (shiftOperand s x y <<< 1) (shlBitOut (shiftOperand s x y))).next

/-- RND Vx, nn (R154): one oracle byte, and-ed with `nn`; the byte is drawn even when `nn = 0` (D22). -/
def execRnd (x : RegIx) (nn : Byte) (s : State) : Host.Outcome State Fault Refusal :=
  .next (s.setReg x (Config.oracleByte s.draws &&& nn)).countDraw.next

end Sys2Proof.Machine
end

