-- ==== Sys2Proof/Machine/Display.lean ====
section
/-! DEFINITION. The display instructions (spec/43_display.md): CLS and the sprite-drawing engine. -/

namespace Sys2Proof.Machine

/-- CLS (R190). -/
def execCls (s : State) : Host.Outcome State Fault Refusal :=
  .next (s.setFb clearCells).next

/-- One opaque pixel: the cell is toggled, and the draw has collided if the cell was set (R191). -/
def toggleCell (cell : Fin 2048) (acc : Vector Bool 2048 × Bool) : Vector Bool 2048 × Bool :=
  (acc.1.set cell.val (!acc.1[cell]) cell.isLt, acc.2 || acc.1[cell])

/-- One pixel of the sprite drawn at column `px`, row `py`: a clear sprite bit leaves the cell alone (R191, R193). -/
def drawPixel (s : State) (px py : Nat) (acc : Vector Bool 2048 × Bool) (rc : Nat × Nat) : Vector Bool 2048 × Bool :=
  if spriteBit s rc.1 rc.2 then toggleCell (cellIndex (px + rc.2) (py + rc.1)) acc else acc

/-- `draw_display`: the framebuffer after the draw, and whether any cell went from set to unset (R191). -/
def drawSprite (s : State) (px py n : Nat) : Vector Bool 2048 × Bool :=
  (spritePixels n).foldl (drawPixel s px py) (s.fb, false)

/-- DRW Vx, Vy, n (R191): the bounds of all `n` sprite bytes are checked before the first cell changes; `VF`, written last,
is the collision flag. -/
def execDrw (x y : RegIx) (n : Nibble) (s : State) : Host.Outcome State Fault Refusal :=
  settle s <|
    match checkRead (s.dataAddr 0) n.toNat with
    | some f => .error f
    | none =>
      let drawn := drawSprite s (s.reg x).toNat (s.reg y).toNat n.toNat
      .ok ((s.setFb drawn.1).setReg flagReg (flagByte drawn.2)).next

end Sys2Proof.Machine
end

