-- ==== Sys2Proof/Machine/Flow.lean ====
section
/-! DEFINITION. Control transfer (spec/40_flow.md): RET, JP, CALL, JP V0, and the four conditional skips. -/

namespace Sys2Proof.Machine

/-- The outcome of a conditional skip: `Skip` if the condition holds, else `Next` (R124 to R127). -/
def State.skipIf (s : State) (c : Bool) : State := if c then s.skip else s.next

/-- RET (R120): pop, then jump to what the slot holds; `StackUnderflow` if the stack is empty. -/
def execRet (s : State) : Host.Outcome State Fault Refusal :=
  settle s <|
    match s.pop with
    | .error f => .error f
    | .ok (t, s') => .ok (s'.jump t)

/-- JP nnn (R121). -/
def execJp (nnn : Addr12) (s : State) : Host.Outcome State Fault Refusal :=
  .next (s.jump (addrOfImm nnn))

/-- CALL nnn (R122): push `pc + 2`, then jump; `StackOverflow` if the stack is full. -/
def execCall (nnn : Addr12) (s : State) : Host.Outcome State Fault Refusal :=
  settle s <|
    match s.push (s.pc + 2#16) with
    | .error f => .error f
    | .ok s' => .ok (s'.jump (addrOfImm nnn))

/-- JP V0, nnn (R123). -/
def execJpV0 (nnn : Addr12) (s : State) : Host.Outcome State Fault Refusal :=
  .next (s.jump (indexedTarget s nnn))

/-- SE Vx, nn (R124). -/
def execSeImm (x : RegIx) (nn : Byte) (s : State) : Host.Outcome State Fault Refusal :=
  .next (s.skipIf (s.reg x == nn))

/-- SNE Vx, nn (R125). -/
def execSneImm (x : RegIx) (nn : Byte) (s : State) : Host.Outcome State Fault Refusal :=
  .next (s.skipIf (s.reg x != nn))

/-- SE Vx, Vy (R126). -/
def execSeReg (x y : RegIx) (s : State) : Host.Outcome State Fault Refusal :=
  .next (s.skipIf (s.reg x == s.reg y))

/-- SNE Vx, Vy (R127). -/
def execSneReg (x y : RegIx) (s : State) : Host.Outcome State Fault Refusal :=
  .next (s.skipIf (s.reg x != s.reg y))

end Sys2Proof.Machine
end

