-- ==== Sys2Proof/Machine/IndexMemory.lean ====
section
/-! DEFINITION. The address register and the memory instructions (spec/42_index_memory.md). No instruction here moves `I` as a
side effect (R174, D9). The stores check every address before the first write (R11, R174). -/

namespace Sys2Proof.Machine

/-- LD I, nnn (R170). -/
def execLdI (nnn : Addr12) (s : State) : Host.Outcome State Fault Refusal :=
  .next (s.setI (indexOfImm nnn)).next

/-- ADD I, Vx (R171): modulo `2^16`, no flag, no fault. -/
def execAddI (x : RegIx) (s : State) : Host.Outcome State Fault Refusal :=
  .next (s.setI (indexSum s x)).next

/-- LD F, Vx (R172): reads no memory. -/
def execLdF (x : RegIx) (s : State) : Host.Outcome State Fault Refusal :=
  .next (s.setI (glyphAddr (s.reg x))).next

/-- Store bytes from address `I` up, all of them or, if a check fails, none (R173, R175). -/
def State.storeAtI (s : State) (bytes : List Byte) : Except Fault State :=
  match checkWrite (s.dataAddr 0) bytes.length with
  | some f => .error f
  | none => .ok (s.setMem (s.mem.writeBytes (s.dataAddr 0) bytes)).next

/-- LD B, Vx (R173): three BCD digits at `I`, `I + 1`, `I + 2`. -/
def execLdB (x : RegIx) (s : State) : Host.Outcome State Fault Refusal :=
  settle s (s.storeAtI (bcdDigits (s.reg x)))

/-- LD [I], Vx (R175): `V[0]` to `V[x]` to `I` and up. -/
def execStoreRegs (x : RegIx) (s : State) : Host.Outcome State Fault Refusal :=
  settle s (s.storeAtI (s.regBlock x))

/-- LD Vx, [I] (R176): `V[0]` to `V[x]` from `I` and up; any region may be read. -/
def execLoadRegs (x : RegIx) (s : State) : Host.Outcome State Fault Refusal :=
  settle s <|
    match checkRead (s.dataAddr 0) (blockLen x) with
    | some f => .error f
    | none => .ok (s.setRegs (s.loadedRegs x)).next

end Sys2Proof.Machine
end

