-- ==== Sys2Proof/Machine/KeysTimers.lean ====
section
/-! DEFINITION. Key and timer instructions (spec/44_keys_timers.md). -/

namespace Sys2Proof.Machine

/-- The key index a register holds, or `KeyIndex` if it is above 15 (R200, R201, D11). -/
def keyOperand (s : State) (x : RegIx) : Except Fault Nat :=
  if 15 < (s.reg x).toNat then .error (.keyIndex (s.reg x)) else .ok (s.reg x).toNat

/-- SKP Vx (R200). -/
def execSkp (x : RegIx) (s : State) : Host.Outcome State Fault Refusal :=
  settle s <|
    match keyOperand s x with
    | .error f => .error f
    | .ok k => .ok (s.skipIf (s.keyLevel k))

/-- SKNP Vx (R201). -/
def execSknp (x : RegIx) (s : State) : Host.Outcome State Fault Refusal :=
  settle s <|
    match keyOperand s x with
    | .error f => .error f
    | .ok k => .ok (s.skipIf (!s.keyLevel k))

/-- LD Vx, K (R203): the least set key, or, with none set, the outcome `Halt`, which changes nothing at all, so that the next
tick polls again. -/
def execLdVxK (x : RegIx) (s : State) : Host.Outcome State Fault Refusal :=
  match s.anyKey with
  | some k => .next (s.setReg x (BitVec.ofNat 8 k)).next
  | none => .next s.halt

/-- LD Vx, DT (R202). -/
def execLdVxDT (x : RegIx) (s : State) : Host.Outcome State Fault Refusal :=
  .next (s.setReg x (timerView s.dt)).next

/-- LD DT, Vx (R204). -/
def execLdDT (x : RegIx) (s : State) : Host.Outcome State Fault Refusal :=
  .next (s.setDT (timerLoad (s.reg x))).next

/-- LD ST, Vx (R205). -/
def execLdST (x : RegIx) (s : State) : Host.Outcome State Fault Refusal :=
  .next (s.setST (timerLoad (s.reg x))).next

end Sys2Proof.Machine
end

