-- ==== Sys2Proof/Machine/Fetch.lean ====
section
/-! DEFINITION. The tick around `exec` (spec/30_encoding.md R101): the fault latch, the fetch (spec/20_memory.md R64), decoding,
and where the fetch finds its instruction. -/

namespace Sys2Proof.Machine

/-- `read_instruction(pc)`: `FetchBounds(pc)` if `pc + 1 > 0xFFF`, computed without wrap; else the big-endian word at `pc`.
Every region is executable and any `pc`, odd or even, is fetched from (R64, R65). -/
def State.fetchWord (s : State) : Except Fault Word :=
  if 0xFFF < s.pc.toNat + 1 then .error (.fetchBounds s.pc)
  else .ok (wordOfBytes (s.mem.read s.pc.toNat) (s.mem.read (s.pc.toNat + 1)))

/-- The fault an illegal word raises (R97, R98). The fetch always gives a whole word, so `truncated` cannot come from it; it
would be a fetch past the end of memory. -/
def decodeFault (s : State) : DecodeError → Fault
  | .nativeCall w => .decodeNativeCall w
  | .unknown w => .decodeUnknown w
  | .truncated => .fetchBounds s.pc

/-- Fetch and decode; the order of the checks is the priority of faults (R101, R224). -/
def State.fetchInstr (s : State) : Except Fault Instr :=
  match s.fetchWord with
  | .error f => .error f
  | .ok w =>
    match decodeWord w with
    | .error e => .error (decodeFault s e)
    | .ok i => .ok i

/-- One tick, given what executes an instruction: with `FAULT` set nothing happens (R226); a fault of fetch or decode is
latched (R225); else the instruction runs (R101). -/
def tickWith (run : Instr → State → Host.Outcome State Fault Refusal) (s : State) : Host.Outcome State Fault Refusal :=
  match s.fault with
  | some _ => .next s
  | none =>
    match s.fetchInstr with
    | .error f => .next (s.takeFault f)
    | .ok i => run i s

/-- Where `placeWord` puts an instruction: at `pc`, or at `0x200` if `pc` is one that no fetch succeeds from. -/
def fetchablePc (pc : Config.PcWord) : Config.PcWord := if 0xFFF < pc.toNat + 1 then 0x0200#16 else pc

/-- `s` with the word where the next tick fetches it, and the latch clear, so that the tick runs it. No operation of the
machine: a program comes to run by the host's load (log 3). -/
def State.placeWord (s : State) (w : Word) : State :=
  { s with
    pc := fetchablePc s.pc
    mem := s.mem.writeBytes (fetchablePc s.pc).toNat [highByte w, lowByte w]
    fault := none }

end Sys2Proof.Machine
end

