-- ==== Sys2Proof/Machine/Step.lean ====
section
/-! DEFINITION. One step is one tick of the core (spec/30_encoding.md R101). -/

namespace Sys2Proof.Machine

/-- `tick()` (R101). What the host does between ticks is `perform` in Machine/HostOps.lean. -/
def step (s : State) : Host.Outcome State Fault Refusal := tickWith exec s

/-- `s` with the instruction whose bits, numbered as spec/opcode_table.json numbers them, are `w`, stored where `step` fetches
next. -/
def State.withFetchWord (s : State) (nbits w : Nat) : State := s.placeWord (tableWord nbits w)

end Sys2Proof.Machine
end

