-- ==== Sys2Proof/Machine/HostOps.lean ====
section
/-! DEFINITION. The operations the host performs on the core (spec/60_exceptions.md R236): load, the lone Bus reset, tick, timer
update, key lines, and the three read-outs. -/

namespace Sys2Proof.Machine

/-- `load(rom)` (R270, R271): every state element takes its reset value and byte `j` of the ROM lands at `0x200 + j`; a ROM of
more than 3584 bytes is `RomTooLarge`. The oracle is not state of the core (R34), so its count of draws goes on. -/
def State.load (s : State) (rom : List Byte) : Except Fault State :=
  if wellFormedRom rom then
    .ok { State.reset with mem := Memory.writeBytes [] Config.progBase rom, draws := s.draws }
  else .error (.romTooLarge rom.length)

/-- `reset()` of the Bus alone (R250): `FAULT`, the Cpu and `MEM` are not touched. -/
def State.busReset (s : State) : State := (((s.setFb clearCells).setKeys noKeys).setDT 0).setST 0

/-- A timer after `dt` seconds: down by `60 * dt`, clamped to zero (R241). -/
def timerAfter (t dt : Config.TimerNumber) : Config.TimerNumber := if Config.timerRate * dt ≤ t then t - Config.timerRate * dt else 0

/-- `update_timers(dt)` (R241); a negative `dt` has no meaning (R246). -/
def State.updateTimers (s : State) (dt : Config.TimerNumber) : Host.Outcome State Fault Refusal :=
  if wellFormedElapsed dt then .next ((s.setDT (timerAfter s.dt dt)).setST (timerAfter s.st dt))
  else .refused (.negativeElapsed dt)

/-- Drive key line `k` to `level`; a `k` above 15 has no meaning (R239, R240, R246). -/
def State.driveKey (s : State) (k : Nat) (level : Bool) : Host.Outcome State Fault Refusal :=
  if h : k < 16 then .next (s.setKeys (s.key.set k level h)) else .refused (.keyOutOfRange k)

/-- `delay_timer()`: the 8-bit view of the delay timer (R243). -/
def State.delayTimer (s : State) : Byte := timerView s.dt

/-- `sound_active()`: `ST > 0`, on the counter (R244, D17). -/
def State.soundActive (s : State) : Bool := decide (0 < s.st)

/-- The operations of R236. -/
inductive Operation where
  /-- `new(rom)` with `reset()` -/
  | load (rom : List Byte)
  /-- `reset()` of the Bus alone -/
  | busReset
  /-- `tick()` -/
  | tick
  /-- `update_timers(dt)` -/
  | updateTimers (dt : Config.TimerNumber)
  /-- `set_key(k)` -/
  | setKey (k : Nat)
  /-- `clear_key(k)` -/
  | clearKey (k : Nat)
  /-- `display()` -/
  | display
  /-- `delay_timer()` -/
  | delayTimer
  /-- `sound_active()` -/
  | soundActive
deriving DecidableEq, Repr

/-- What one operation does to the state (R236). Each is atomic (R247). A refused load leaves the old state (R271); a call
outside its domain is refused (R246). -/
def perform (op : Operation) (s : State) : Host.Outcome State Fault Refusal :=
  match op with
  | .load rom =>
    match s.load rom with
    | .ok t => .next t
    | .error _ => .next s
  | .busReset => .next s.busReset
  | .tick => step s
  | .updateTimers dt => s.updateTimers dt
  | .setKey k => s.driveKey k true
  | .clearKey k => s.driveKey k false
  | .display => .next s
  | .delayTimer => .next s
  | .soundActive => .next s

/-- The code of a fault, 1 to 9 (R220; labels of the spec's own, D18). -/
def faultCode : Fault → Nat
  | .fetchBounds _ => 1
  | .decodeNativeCall _ => 2
  | .decodeUnknown _ => 3
  | .stackOverflow _ => 4
  | .stackUnderflow _ => 5
  | .memoryBounds _ => 6
  | .fontWrite _ => 7
  | .keyIndex _ => 8
  | .romTooLarge _ => 9

/-- What the host gets back (R236). -/
inductive Answer where
  | nothing
  | raised (f : Fault)
  | cells (fb : Vector Bool 2048)
  | byte (b : Byte)
  | level (b : Bool)
deriving DecidableEq, Repr

/-- The answer of a tick: the fault it raises, or nothing; a tick of a core that is already faulted raises none
(R225, R226). -/
def tickAnswer (s : State) : Answer :=
  match s.fault, step s with
  | none, .next t =>
    match t.fault with
    | some f => .raised f
    | none => .nothing
  | _, _ => .nothing

/-- What the host gets back from an operation on `s` (R236, R238, R243, R244, R271). For a call that `perform` refuses (R246) the
spec gives no result: the `.nothing` that stands here for it is vacuous, there is no such move to answer. DESIGN CHOICE,
log 17: safe. -/
def answer (op : Operation) (s : State) : Answer :=
  match op with
  | .load rom =>
    match s.load rom with
    | .ok _ => .nothing
    | .error f => .raised f
  | .tick => tickAnswer s
  | .display => .cells s.fb
  | .delayTimer => .byte s.delayTimer
  | .soundActive => .level s.soundActive
  | .busReset => .nothing
  | .updateTimers _ => .nothing
  | .setKey _ => .nothing
  | .clearKey _ => .nothing

end Sys2Proof.Machine
end

