-- ==== Sys2Proof/Safety.lean ====
section
/-! DEFINITION. What counts as a safe run, the machine's invariant, the parts of the state a frame names, and the conventional
end of a program. -/

namespace Sys2Proof.Machine

/-- A state that no fault has stopped: a faulted state is never final and never a success (R225). -/
def State.Safe (s : State) : Prop := s.fault = none

/-- `sp` is an even address from `0x050` to `0x050 + 2 * STACK_CAPACITY` (R27). -/
abbrev State.SpOk (s : State) : Prop :=
  Config.stackBase ≤ s.sp.toNat ∧ s.sp.toNat ≤ Config.stackBase + 2 * Config.stackCapacity ∧ s.sp.toNat % 2 = 0

/-- A timer's range (R30). -/
abbrev TimerOk (t : Config.TimerNumber) : Prop := 0 ≤ t ∧ t ≤ 255

/-- `FAULT` holds a fault of a tick: `RomTooLarge` is never latched (R271). -/
def latchable : Option Fault → Bool
  | some (.romTooLarge _) => false
  | _ => true

/-- The machine's invariant: memory in its canonical form, nothing listed outside the writable part of the address space (so
the font reads as `FONT_TABLE`), `sp` and both timers in range, and only a tick's fault latched (R27, R30, R60, R67, R271). -/
abbrev State.Inv (s : State) : Prop :=
  Memory.wf s.mem = true ∧ Memory.inWritableSpace s.mem = true ∧ s.SpOk ∧ TimerOk s.dt ∧ TimerOk s.st ∧
    latchable s.fault = true

/-- The parts of the state, for frames. -/
inductive Part where
  | regs
  | index
  | pc
  | sp
  | memory
  | framebuffer
  | keys
  | delay
  | sound
  | latch
  | draws
deriving DecidableEq, Repr

/-- A part is the same in both states. Memory is compared by reading every byte, the registers one by one. -/
def Part.same : Part → State → State → Prop
  | .regs, s, t => ∀ r, t.reg r = s.reg r
  | .index, s, t => t.i = s.i
  | .pc, s, t => t.pc = s.pc
  | .sp, s, t => t.sp = s.sp
  | .memory, s, t => ∀ a, t.mem.read a = s.mem.read a
  | .framebuffer, s, t => ∀ c : Fin 2048, t.fb[c] = s.fb[c]
  | .keys, s, t => ∀ k : Fin 16, t.key[k] = s.key[k]
  | .delay, s, t => t.dt = s.dt
  | .sound, s, t => t.st = s.st
  | .latch, s, t => t.fault = s.fault
  | .draws, s, t => t.draws = s.draws

/-- Every part of the state but those named is unchanged from `s` to `t`. -/
def SameBut (changed : List Part) (s t : State) : Prop := ∀ p, p ∉ changed → p.same s t

/-- The registers but those named are unchanged from `s` to `t`. -/
def RegsBut (changed : List RegIx) (s t : State) : Prop := ∀ r, r ∉ changed → t.reg r = s.reg r

/-- Raising `f`: only the latch changes, and it holds `f` (R223). -/
def Raises (s t : State) (f : Fault) : Prop := t.fault = some f ∧ SameBut [.latch] s t

/-- The six instructions that overwrite `VF` with 0 or 1 (R22). -/
def writesFlag : Instr → Bool
  | .addReg _ _ | .sub _ _ | .subn _ _ | .shr _ _ | .shl _ _ | .drw _ _ _ => true
  | .cls | .ret | .jp _ | .call _ | .seImm _ _ | .sneImm _ _ | .seReg _ _ | .ldImm _ _ | .addImm _ _ | .ldReg _ _ => false
  | .orReg _ _ | .andReg _ _ | .xorReg _ _ | .sneReg _ _ | .ldI _ | .jpV0 _ | .rnd _ _ | .skp _ | .sknp _ => false
  | .ldVxDT _ | .ldVxK _ | .ldDT _ | .ldST _ | .addI _ | .ldF _ | .ldB _ | .storeRegs _ | .loadRegs _ => false

/-- The instruction has `VF` among its ordinary destinations: its destination field names register 15 (R22). -/
def destinationIsFlag : Instr → Bool
  | .ldImm x _ | .addImm x _ | .ldReg x _ | .orReg x _ | .andReg x _ | .xorReg x _ | .rnd x _ => x == flagReg
  | .addReg x _ | .sub x _ | .subn x _ | .shr x _ | .shl x _ => x == flagReg
  | .ldVxDT x | .ldVxK x | .loadRegs x => x == flagReg
  | .cls | .ret | .jp _ | .call _ | .seImm _ _ | .sneImm _ _ | .seReg _ _ | .sneReg _ _ | .ldI _ | .jpV0 _ => false
  | .drw _ _ _ | .skp _ | .sknp _ | .ldDT _ | .ldST _ | .addI _ | .ldF _ | .ldB _ | .storeRegs _ => false

/-- Which fault each instruction can raise once decoded (R221). -/
def mayRaise : Instr → Fault → Bool
  | .call _, .stackOverflow _ => true
  | .ret, .stackUnderflow _ => true
  | .drw _ _ _, .memoryBounds _ => true
  | .ldB _, .memoryBounds _ => true
  | .ldB _, .fontWrite _ => true
  | .storeRegs _, .memoryBounds _ => true
  | .storeRegs _, .fontWrite _ => true
  | .loadRegs _, .memoryBounds _ => true
  | .skp _, .keyIndex _ => true
  | .sknp _, .keyIndex _ => true
  | _, _ => false

/-- Cell `c` lies under a set bit of the `n`-row sprite at `I`, drawn at column `px` and row `py` with wraparound
(R191 to R193). -/
def OpaqueCell (s : State) (px py n : Nat) (c : Fin 2048) : Prop :=
  ∃ row col, row < n ∧ col < 8 ∧ (py + row) % 32 * 64 + (px + col) % 64 = c.val ∧
    (s.mem.read (s.i.toNat + row)).getLsbD (7 - col) = true

/-- The program has ended, by the convention of R276: no fault, and `pc` addresses a jump to itself. The hardware does not
detect it. -/
def State.Ended (s : State) : Prop :=
  s.fault = none ∧ ∃ nnn, s.fetchInstr = .ok (.jp nnn) ∧ addrOfImm nnn = s.pc

/-- The states some sequence of host operations reaches (R247), beginning with a load; `State.reset` is the load of the empty
ROM. -/
inductive Reachable : State → Prop where
  | reset : Reachable State.reset
  | step (op : Operation) {s t : State} : Reachable s → perform op s = .next t → Reachable t

end Sys2Proof.Machine
end

