-- ==== Sys2Proof/Certificates/Slice0/Obligations.lean ====
section
/-! DEFINITION. The statements for the provers. Each docstring names the rule of spec/ it formalises. A statement says
`stated` in OBLIGATIONS.json only if no clause of it rests on one of the spec's own decisions about behaviour; the fault names
and the latch (D18) and `STACK_CAPACITY` as a parameter (D3) are used as the rules themselves use them. -/

open Sys2Proof Sys2Proof.Machine

/-! ### Encoding -/

/-- Decoding an encoded instruction gives it back, with every operand at every value its field admits, as a word and as two
bytes with anything after them (spec/30_encoding.md sections 1 and 2; the map is D1, log 5). -/
def Obligations.DecodeOfEncodeIsTheInstruction : Prop :=
  ∀ (i : Instr) (rest : List Byte),
    decodeWord (encode i) = .ok i ∧ decodeBytes (encodeBytes i ++ rest) = .ok (i, rest)

/-- Each legal word has one meaning: encoding what it decodes to gives the word, the don't-care `y` of the shifts included
(spec/30_encoding.md R94, R99, marked derived there; the map is D1, log 5). -/
def Obligations.EncodeOfDecodeIsTheWord : Prop :=
  ∀ (w : Word) (i : Instr), decodeWord w = .ok i → encode i = w

/-- The decoder, written by fields, accepts exactly the words that select a row of the opcode map, written by match and mask
(spec/30_encoding.md section 2, R95 and R96; the map is D1, read strictly by D19, log 5). -/
def Obligations.LegalWordsSelectARowOfTheMap : Prop :=
  ∀ w : Word, (∃ i, decodeWord w = .ok i) ↔ wellFormedWord w = true

/-- The opcode map has 34 rows and no word selects two of them (spec/30_encoding.md section 2; the map is D1, log 5). -/
def Obligations.OpcodeRowsAreDisjoint : Prop :=
  opcodeRows.length = 34 ∧ opcodeRows.Pairwise fun r q => ∀ w, r.selects w = true → q.selects w = false

/-- R97: a word `0x0nnn` other than `00E0` and `00EE` raises `DecodeNativeCall(w)`; it is exactly those words the decoder
calls native calls. -/
def Obligations.NativeCallWordsRaise : Prop :=
  (∀ w : Word, decodeWord w = .error (.nativeCall w) ↔ fieldOp w = 0x0#4 ∧ w ≠ 0x00E0#16 ∧ w ≠ 0x00EE#16) ∧
  ∀ (s : State) (w : Word), s.fault = none → s.fetchWord = .ok w → fieldOp w = 0x0#4 → w ≠ 0x00E0#16 → w ≠ 0x00EE#16 →
    ∃ t, step s = .next t ∧ Raises s t (.decodeNativeCall w)

/-- The unassigned words, listed as spec/30_encoding.md section 3 lists them, raise `DecodeUnknown(w)`, and no other word is
called unknown. The strict reading of `5xyn` and `9xyn` is the spec's decision D19. -/
def Obligations.UnassignedWordsRaise : Prop :=
  (∀ w : Word, decodeWord w = .error (.unknown w) ↔
    ((fieldOp w = 0x5#4 ∨ fieldOp w = 0x9#4) ∧ fieldN w ≠ 0x0#4) ∨
    (fieldOp w = 0x8#4 ∧ fieldN w ∈ [0x8#4, 0x9#4, 0xA#4, 0xB#4, 0xC#4, 0xD#4, 0xF#4]) ∨
    (fieldOp w = 0xE#4 ∧ fieldNN w ∉ [0x9E#8, 0xA1#8]) ∨
    (fieldOp w = 0xF#4 ∧
      fieldNN w ∉ [0x07#8, 0x0A#8, 0x15#8, 0x18#8, 0x1E#8, 0x29#8, 0x33#8, 0x55#8, 0x65#8])) ∧
  ∀ (s : State) (w : Word), s.fault = none → s.fetchWord = .ok w → decodeWord w = .error (.unknown w) →
    ∃ t, step s = .next t ∧ Raises s t (.decodeUnknown w)

/-- Words of the spec's own examples, one or more for each family (spec/95_test_vectors.md part 1, tables 2.1 to 2.8, and for
`D125` program P3 of part 3). Every one of them rests on the opcode map, which the spec presumes from general knowledge
(D1, log 5). -/
def Obligations.ExampleWordsDecode : Prop :=
  decodeWord 0x00E0#16 = .ok .cls ∧ decodeWord 0x00EE#16 = .ok .ret ∧
  decodeWord 0x1234#16 = .ok (.jp 0x234#12) ∧ decodeWord 0x332A#16 = .ok (.seImm 0x3#4 0x2A#8) ∧
  decodeWord 0x8127#16 = .ok (.subn 0x1#4 0x2#4) ∧ decodeWord 0x81FE#16 = .ok (.shl 0x1#4 0xF#4) ∧
  decodeWord 0xA300#16 = .ok (.ldI 0x300#12) ∧ decodeWord 0xC30F#16 = .ok (.rnd 0x3#4 0x0F#8) ∧
  decodeWord 0xD125#16 = .ok (.drw 0x1#4 0x2#4 0x5#4) ∧ decodeWord 0xE5A1#16 = .ok (.sknp 0x5#4) ∧
  decodeWord 0xF40A#16 = .ok (.ldVxK 0x4#4) ∧ decodeWord 0xF255#16 = .ok (.storeRegs 0x2#4)

/-! ### The tick -/

/-- R64: fetch faults exactly when `pc + 1` is beyond `0xFFF`; else it gives `{MEM[pc], MEM[pc+1]}`, from any region. -/
def Obligations.FetchIsBigEndianOrFaults : Prop :=
  ∀ s : State,
    (0xFFF < s.pc.toNat + 1 →
      s.fetchWord = .error (.fetchBounds s.pc) ∧
      (s.fault = none → ∃ t, step s = .next t ∧ Raises s t (.fetchBounds s.pc))) ∧
    (s.pc.toNat + 1 ≤ 0xFFF →
      ∃ w, s.fetchWord = .ok w ∧
        w.toNat = 256 * (s.mem.read s.pc.toNat).toNat + (s.mem.read (s.pc.toNat + 1)).toNat)

/-- A step runs the decoded instruction: with no fault latched and the bytes at `pc` decoding to `i`, `step` is `exec i`
(spec/30_encoding.md section 4; every `Instr` is well formed). The latch test is the spec's decision D18. -/
def Obligations.StepRunsTheDecodedInstruction : Prop :=
  ∀ (s : State) (i : Instr) (rest : List Byte), s.fault = none → s.pc.toNat < 0xFFF →
    decodeBytes (s.mem.read s.pc.toNat :: s.mem.read (s.pc.toNat + 1) :: rest) = .ok (i, rest) →
    step s = exec i s

/-- While a fault is latched a tick changes nothing (spec/60_exceptions.md section 2; the latch is D18). -/
def Obligations.FaultedCoreTicksIdle : Prop :=
  ∀ (s : State) (f : Fault), s.fault = some f → step s = .next s

/-- Every tick answers a next state, from every state: no instruction and no illegal word stops the model
(spec/30_encoding.md section 4: the faults of a tick are latched, D18). -/
def Obligations.EveryTickAnswersANextState : Prop :=
  ∀ s : State, ∃ t, step s = .next t

/-- R223: a tick that raises a fault changes nothing but the latch: no register, no memory byte, no cell, no timer, not `sp`,
not `pc`, and it draws no oracle byte. -/
def Obligations.FaultingTickChangesOnlyTheLatch : Prop :=
  ∀ s t : State, s.fault = none → step s = .next t → t.fault ≠ none → SameBut [.latch] s t

/-- Each instruction raises only its own faults (spec/60_exceptions.md section 1, marked derived there). `sp` in range rules out
the states no run reaches (log 6). -/
def Obligations.InstructionsRaiseOnlyTheirOwnFaults : Prop :=
  ∀ (i : Instr) (s t : State) (f : Fault), s.SpOk → s.fault = none → exec i s = .next t → t.fault = some f →
    mayRaise i f = true

/-- Reset meets the invariant. -/
def Obligations.ResetMeetsTheInvariant : Prop := State.reset.Inv

/-- Every step keeps the invariant (spec/10_state.md R27, R30; spec/20_memory.md R60, R67), from every state that meets it. -/
def Obligations.StepKeepsTheInvariant : Prop :=
  ∀ s t : State, s.Inv → step s = .next t → t.Inv

/-- Every operation the host can perform keeps the invariant, so every reachable state has it
(spec/60_exceptions.md section 5). -/
def Obligations.EveryReachableStateMeetsTheInvariant : Prop :=
  (∀ (op : Operation) (s t : State), s.Inv → perform op s = .next t → t.Inv) ∧ ∀ s : State, Reachable s → s.Inv

/-- No tick changes a byte of the font, from any state, and in every reachable state the font reads as `FONT_TABLE`
(spec/20_memory.md section 3; that the violating store faults is D13, the table's bytes D2). The first clause speaks of every
state: for a CALL with `sp` below `0x050`, which no run reaches, it rests on the model's choice that a push makes the checks of
its memory access (DEDUCED, log 6). -/
def Obligations.TheFontIsNeverMutated : Prop :=
  (∀ s t : State, step s = .next t → ∀ a < 0x050, t.mem.read a = s.mem.read a) ∧
  ∀ s : State, Reachable s → ∀ a < 0x050, Config.fontTable[a]? = some (s.mem.read a)

/-- Which instructions write which part of the state: `I`, `sp`, memory, the framebuffer, the keys, the timers and the oracle
count (spec/10_state.md R24, R27, R28, R29; spec/20_memory.md R77; spec/60_exceptions.md R242; spec/41_alu.md R154;
that the block moves leave `I` alone is D9, log 13). -/
def Obligations.StatePartsHaveOnlyTheirWriters : Prop :=
  ∀ (i : Instr) (s t : State), exec i s = .next t →
    ((∀ nnn x, i ≠ .ldI nnn ∧ i ≠ .addI x ∧ i ≠ .ldF x) → t.i = s.i) ∧
    ((∀ nnn, i ≠ .call nnn ∧ i ≠ .ret) → t.sp = s.sp) ∧
    ((∀ nnn x, i ≠ .call nnn ∧ i ≠ .ldB x ∧ i ≠ .storeRegs x) → Part.memory.same s t) ∧
    ((∀ x y n, i ≠ .cls ∧ i ≠ .drw x y n) → Part.framebuffer.same s t) ∧
    t.key = s.key ∧
    ((∀ x, i ≠ .ldDT x) → t.dt = s.dt) ∧
    ((∀ x, i ≠ .ldST x) → t.st = s.st) ∧
    ((∀ x nn, i ≠ .rnd x nn) → t.draws = s.draws)

/-- `VF`: an instruction that is none of the six flag writers and does not name register 15 as its destination leaves it
alone; a flag writer that raises no fault leaves it 0 or 1 (spec/10_state.md section 2; D7, D8). -/
def Obligations.FlagRegisterHasOnlyItsWriters : Prop :=
  ∀ (i : Instr) (s t : State), exec i s = .next t →
    (writesFlag i = false → destinationIsFlag i = false → t.reg flagReg = s.reg flagReg) ∧
    (writesFlag i = true → s.fault = none → t.fault = none → t.reg flagReg = 0#8 ∨ t.reg flagReg = 1#8)

/-- A jump to itself is an end: from then on a tick changes no state element (spec/70_reset_and_hazards.md section 3). -/
def Obligations.SelfJumpIsAFixedPoint : Prop :=
  ∀ s : State, s.Ended → step s = .next s

/-- Only a load ends a fault: every other operation, a tick included, leaves the latch as it is, and only a tick sets it
(spec/60_exceptions.md section 2; the latch is the spec's decision D18). -/
def Obligations.OnlyALoadEndsAFault : Prop :=
  ∀ (op : Operation) (s t : State), (∀ rom, op ≠ .load rom) → perform op s = .next t →
    (¬ s.Safe → t.fault = s.fault) ∧ (op ≠ .tick → t.fault = s.fault)

/-- `pc` moves by 0, 2 or 4, but for the four jumps, calls and returns (spec/40_flow.md section 1, marked derived there). -/
def Obligations.PcMovesByTheFourOutcomes : Prop :=
  ∀ (i : Instr) (s t : State), exec i s = .next t →
    (∀ nnn, i ≠ .jp nnn ∧ i ≠ .call nnn ∧ i ≠ .jpV0 nnn ∧ i ≠ .ret) →
    t.pc = s.pc ∨ t.pc = s.pc + 2#16 ∨ t.pc = s.pc + 4#16

/-! ### Control transfer -/

/-- R120: RET, with `sp` in its range. -/
def Obligations.RetPopsOrUnderflows : Prop :=
  ∀ s : State, s.SpOk →
    (s.sp = 0x050#16 → ∃ t, exec .ret s = .next t ∧ Raises s t (.stackUnderflow s.sp)) ∧
    (s.sp ≠ 0x050#16 → ∃ t, exec .ret s = .next t ∧
      t.pc.toNat = 256 * (s.mem.read (s.sp.toNat - 2)).toNat + (s.mem.read (s.sp.toNat - 1)).toNat ∧
      t.sp.toNat = s.sp.toNat - 2 ∧ SameBut [.pc, .sp] s t)

/-- R121: JP. -/
def Obligations.JumpSetsPc : Prop :=
  ∀ (s : State) (nnn : Addr12), ∃ t, exec (.jp nnn) s = .next t ∧ t.pc.toNat = nnn.toNat ∧ SameBut [.pc] s t

/-- R122: CALL, with `sp` in its range. The stack slot is at `sp`, `sp + 1` of the state before. -/
def Obligations.CallPushesOrOverflows : Prop :=
  ∀ (s : State) (nnn : Addr12), s.SpOk →
    (Config.stackCapacity ≤ (s.sp.toNat - 0x050) / 2 →
      ∃ t, exec (.call nnn) s = .next t ∧ Raises s t (.stackOverflow s.sp)) ∧
    ((s.sp.toNat - 0x050) / 2 < Config.stackCapacity → ∃ t, exec (.call nnn) s = .next t ∧
      (t.mem.read s.sp.toNat).toNat = (s.pc + 2#16).toNat / 256 ∧
      (t.mem.read (s.sp.toNat + 1)).toNat = (s.pc + 2#16).toNat % 256 ∧
      (∀ a, a ≠ s.sp.toNat → a ≠ s.sp.toNat + 1 → t.mem.read a = s.mem.read a) ∧
      t.sp.toNat = s.sp.toNat + 2 ∧ t.pc.toNat = nnn.toNat ∧ SameBut [.memory, .pc, .sp] s t)

/-- R123: JP V0, nnn; the base is always `V0` and nothing wraps. -/
def Obligations.IndexedJumpAddsV0 : Prop :=
  ∀ (s : State) (nnn : Addr12), ∃ t, exec (.jpV0 nnn) s = .next t ∧
    t.pc.toNat = nnn.toNat + (s.reg 0x0#4).toNat ∧ SameBut [.pc] s t

/-- R124 and R125: the skips on an immediate. -/
def Obligations.SkipsOnAnImmediate : Prop :=
  ∀ (s : State) (x : RegIx) (nn : Byte),
    (∃ t, exec (.seImm x nn) s = .next t ∧ t.pc = s.pc + (if s.reg x = nn then 4#16 else 2#16) ∧ SameBut [.pc] s t) ∧
    (∃ t, exec (.sneImm x nn) s = .next t ∧ t.pc = s.pc + (if s.reg x = nn then 2#16 else 4#16) ∧ SameBut [.pc] s t)

/-- The skips on two registers (spec/40_flow.md section 3). -/
def Obligations.SkipsOnTwoRegisters : Prop :=
  ∀ (s : State) (x y : RegIx),
    (∃ t, exec (.seReg x y) s = .next t ∧ t.pc = s.pc + (if s.reg x = s.reg y then 4#16 else 2#16) ∧ SameBut [.pc] s t) ∧
    (∃ t, exec (.sneReg x y) s = .next t ∧ t.pc = s.pc + (if s.reg x = s.reg y then 2#16 else 4#16) ∧ SameBut [.pc] s t)

/-- A RET that finds the stack slot of a CALL as the call left it, and `sp` where the call left it, goes to the address after
the call and puts `sp` back, whatever ran between (spec/40_flow.md section 2, worked example of RET). -/
def Obligations.ReturnComesBackFromCall : Prop :=
  ∀ (s t u : State) (nnn : Addr12), s.SpOk → (s.sp.toNat - 0x050) / 2 < Config.stackCapacity →
    exec (.call nnn) s = .next t → u.sp = t.sp → u.mem.read s.sp.toNat = t.mem.read s.sp.toNat →
    u.mem.read (s.sp.toNat + 1) = t.mem.read (s.sp.toNat + 1) →
    ∃ r, exec .ret u = .next r ∧ r.pc = s.pc + 2#16 ∧ r.sp = s.sp ∧ SameBut [.pc, .sp] u r

/-! ### Registers and arithmetic -/

/-- R140 and R142: load immediate and register copy. -/
def Obligations.LoadsIntoARegister : Prop :=
  ∀ (s : State) (x y : RegIx) (nn : Byte),
    (∃ t, exec (.ldImm x nn) s = .next t ∧ t.reg x = nn ∧ RegsBut [x] s t ∧ t.pc = s.pc + 2#16 ∧
      SameBut [.regs, .pc] s t) ∧
    (∃ t, exec (.ldReg x y) s = .next t ∧ t.reg x = s.reg y ∧ RegsBut [x] s t ∧ t.pc = s.pc + 2#16 ∧
      SameBut [.regs, .pc] s t)

/-- R141: add immediate wraps modulo 256 and touches no flag. -/
def Obligations.AddImmediateWraps : Prop :=
  ∀ (s : State) (x : RegIx) (nn : Byte), ∃ t, exec (.addImm x nn) s = .next t ∧
    (t.reg x).toNat = ((s.reg x).toNat + nn.toNat) % 256 ∧ RegsBut [x] s t ∧ t.pc = s.pc + 2#16 ∧ SameBut [.regs, .pc] s t

/-- The three bitwise operations, bit by bit, `VF` untouched unless it is the destination (spec/41_alu.md section 3; D8). -/
def Obligations.BitwiseLogic : Prop :=
  ∀ (s : State) (x y : RegIx),
    (∃ t, exec (.orReg x y) s = .next t ∧
      (∀ b < 8, (t.reg x).getLsbD b = ((s.reg x).getLsbD b || (s.reg y).getLsbD b)) ∧
      RegsBut [x] s t ∧ t.pc = s.pc + 2#16 ∧ SameBut [.regs, .pc] s t) ∧
    (∃ t, exec (.andReg x y) s = .next t ∧
      (∀ b < 8, (t.reg x).getLsbD b = ((s.reg x).getLsbD b && (s.reg y).getLsbD b)) ∧
      RegsBut [x] s t ∧ t.pc = s.pc + 2#16 ∧ SameBut [.regs, .pc] s t) ∧
    (∃ t, exec (.xorReg x y) s = .next t ∧
      (∀ b < 8, (t.reg x).getLsbD b = ((s.reg x).getLsbD b != (s.reg y).getLsbD b)) ∧
      RegsBut [x] s t ∧ t.pc = s.pc + 2#16 ∧ SameBut [.regs, .pc] s t)

/-- ADD Vx, Vy, every `x` and `y`; `VF` is the carry out (spec/41_alu.md section 4, the rule of this instruction; that for `x = 15`
the flag is what `VF` holds is the spec's decision D7). -/
def Obligations.AddRegistersWithCarry : Prop :=
  ∀ (s : State) (x y : RegIx), ∃ t, exec (.addReg x y) s = .next t ∧
    (x ≠ flagReg → (t.reg x).toNat = ((s.reg x).toNat + (s.reg y).toNat) % 256) ∧
    t.reg flagReg = (if 255 < (s.reg x).toNat + (s.reg y).toNat then 1#8 else 0#8) ∧
    RegsBut [x, flagReg] s t ∧ t.pc = s.pc + 2#16 ∧ SameBut [.regs, .pc] s t

/-- SUB and SUBN, every `x` and `y`; `VF` is 1 when there is no borrow (spec/41_alu.md section 4, the rules of the two; that for
`x = 15` the flag is what `VF` holds is the spec's decision D7). -/
def Obligations.SubtractionsWithBorrow : Prop :=
  ∀ (s : State) (x y : RegIx),
    (∃ t, exec (.sub x y) s = .next t ∧
      (x ≠ flagReg → (t.reg x).toNat = ((s.reg x).toNat + 256 - (s.reg y).toNat) % 256) ∧
      t.reg flagReg = (if (s.reg y).toNat ≤ (s.reg x).toNat then 1#8 else 0#8) ∧
      RegsBut [x, flagReg] s t ∧ t.pc = s.pc + 2#16 ∧ SameBut [.regs, .pc] s t) ∧
    (∃ t, exec (.subn x y) s = .next t ∧
      (x ≠ flagReg → (t.reg x).toNat = ((s.reg y).toNat + 256 - (s.reg x).toNat) % 256) ∧
      t.reg flagReg = (if (s.reg x).toNat ≤ (s.reg y).toNat then 1#8 else 0#8) ∧
      RegsBut [x, flagReg] s t ∧ t.pc = s.pc + 2#16 ∧ SameBut [.regs, .pc] s t)

/-- SHR and SHL shift `Vx` in place by one bit, whatever `y` is; `VF` is the bit shifted out (spec/41_alu.md section 5; the
in-place reading is the spec's decision D6, the order of the writes D7). -/
def Obligations.ShiftsInPlace : Prop :=
  ∀ (s : State) (x y : RegIx),
    (∃ t, exec (.shr x y) s = .next t ∧ (x ≠ flagReg → (t.reg x).toNat = (s.reg x).toNat / 2) ∧
      (t.reg flagReg).toNat = (s.reg x).toNat % 2 ∧
      RegsBut [x, flagReg] s t ∧ t.pc = s.pc + 2#16 ∧ SameBut [.regs, .pc] s t) ∧
    (∃ t, exec (.shl x y) s = .next t ∧ (x ≠ flagReg → (t.reg x).toNat = 2 * (s.reg x).toNat % 256) ∧
      (t.reg flagReg).toNat = (s.reg x).toNat / 128 ∧
      RegsBut [x, flagReg] s t ∧ t.pc = s.pc + 2#16 ∧ SameBut [.regs, .pc] s t)

/-- RND: the next oracle byte and-ed with the immediate, one byte drawn whatever `nn` is (spec/41_alu.md section 6; D22). The
count of draws is the model's own field and the oracle has no body: the statement holds for every oracle (log 2). -/
def Obligations.RandomByteIsMasked : Prop :=
  ∀ (s : State) (x : RegIx) (nn : Byte), ∃ t, exec (.rnd x nn) s = .next t ∧
    t.reg x = Config.oracleByte s.draws &&& nn ∧ t.draws = s.draws + 1 ∧ RegsBut [x] s t ∧ t.pc = s.pc + 2#16 ∧
    SameBut [.regs, .pc, .draws] s t

/-! ### The address register and memory -/

/-- R170: LD I. -/
def Obligations.LoadIndex : Prop :=
  ∀ (s : State) (nnn : Addr12), ∃ t, exec (.ldI nnn) s = .next t ∧ t.i.toNat = nnn.toNat ∧ t.pc = s.pc + 2#16 ∧
    SameBut [.index, .pc] s t

/-- ADD I: modulo `2^16`, no flag (spec/42_index_memory.md section 2; the wrap is the spec's decision D4). -/
def Obligations.AddToIndexWraps : Prop :=
  ∀ (s : State) (x : RegIx), ∃ t, exec (.addI x) s = .next t ∧
    t.i.toNat = (s.i.toNat + (s.reg x).toNat) % 65536 ∧ t.pc = s.pc + 2#16 ∧ SameBut [.index, .pc] s t

/-- LD F: `I` is five times the whole register (spec/42_index_memory.md section 2; not masked, D10), and for a digit 0 to 15 in a
state whose font is intact the five bytes there are its glyph. -/
def Obligations.FontAddressOfADigit : Prop :=
  ∀ (s : State) (x : RegIx), ∃ t, exec (.ldF x) s = .next t ∧ t.i.toNat = 5 * (s.reg x).toNat ∧
    t.pc = s.pc + 2#16 ∧ SameBut [.index, .pc] s t ∧
    ((s.reg x).toNat < 16 → s.mem.inWritableSpace = true → ∀ k < 5,
      Config.fontTable[5 * (s.reg x).toNat + k]? = some (t.mem.read (t.i.toNat + k)))

/-- LD B: three decimal digits at `I`, `I + 1`, `I + 2`, or the fault of its checks with no byte written
(spec/42_index_memory.md section 3; the faults are D12 and D13). -/
def Obligations.BcdStoreOrFaults : Prop :=
  ∀ (s : State) (x : RegIx),
    (0x050 ≤ s.i.toNat → s.i.toNat + 2 ≤ 0xFFF → ∃ t, exec (.ldB x) s = .next t ∧
      100 * (t.mem.read s.i.toNat).toNat + 10 * (t.mem.read (s.i.toNat + 1)).toNat + (t.mem.read (s.i.toNat + 2)).toNat
        = (s.reg x).toNat ∧
      (t.mem.read (s.i.toNat + 1)).toNat ≤ 9 ∧ (t.mem.read (s.i.toNat + 2)).toNat ≤ 9 ∧
      (∀ a, a < s.i.toNat ∨ s.i.toNat + 2 < a → t.mem.read a = s.mem.read a) ∧
      t.pc = s.pc + 2#16 ∧ SameBut [.memory, .pc] s t) ∧
    (0xFFF < s.i.toNat + 2 → ∃ t, exec (.ldB x) s = .next t ∧ Raises s t (.memoryBounds (max s.i.toNat 0x1000))) ∧
    (s.i.toNat < 0x050 → ∃ t, exec (.ldB x) s = .next t ∧ Raises s t (.fontWrite s.i.toNat))

/-- LD [I], Vx: `V0` to `Vx` to `I` to `I + x`, `I` unchanged, or the fault of its checks with no byte written
(spec/42_index_memory.md section 3; `I` unchanged is D9, the faults D12 and D13). -/
def Obligations.BlockStoreOrFaults : Prop :=
  ∀ (s : State) (x : RegIx),
    (0x050 ≤ s.i.toNat → s.i.toNat + x.toNat ≤ 0xFFF → ∃ t, exec (.storeRegs x) s = .next t ∧
      (∀ k : RegIx, k ≤ x → t.mem.read (s.i.toNat + k.toNat) = s.reg k) ∧
      (∀ a, a < s.i.toNat ∨ s.i.toNat + x.toNat < a → t.mem.read a = s.mem.read a) ∧
      t.pc = s.pc + 2#16 ∧ SameBut [.memory, .pc] s t) ∧
    (0xFFF < s.i.toNat + x.toNat →
      ∃ t, exec (.storeRegs x) s = .next t ∧ Raises s t (.memoryBounds (max s.i.toNat 0x1000))) ∧
    (s.i.toNat < 0x050 → ∃ t, exec (.storeRegs x) s = .next t ∧ Raises s t (.fontWrite s.i.toNat))

/-- LD Vx, [I]: `V0` to `Vx` from `I` to `I + x`, from any region, `I` and the registers above `x` unchanged, or
`MemoryBounds` with no register written (spec/42_index_memory.md section 3; D9, D12). -/
def Obligations.BlockLoadOrFaults : Prop :=
  ∀ (s : State) (x : RegIx),
    (s.i.toNat + x.toNat ≤ 0xFFF → ∃ t, exec (.loadRegs x) s = .next t ∧
      (∀ k : RegIx, k ≤ x → t.reg k = s.mem.read (s.i.toNat + k.toNat)) ∧
      (∀ k : RegIx, x < k → t.reg k = s.reg k) ∧ t.pc = s.pc + 2#16 ∧ SameBut [.regs, .pc] s t) ∧
    (0xFFF < s.i.toNat + x.toNat →
      ∃ t, exec (.loadRegs x) s = .next t ∧ Raises s t (.memoryBounds (max s.i.toNat 0x1000)))

/-- The block load is the inverse of the block store: from any later state with the stored memory and the same `I`, whatever
its registers, it brings back the stored registers (spec/42_index_memory.md section 3, "block-load: the inverse"). "The same `I`"
is the one after the store, which is the one before it only because the store leaves `I` alone: the spec's decision D9,
log 13. -/
def Obligations.BlockLoadInvertsBlockStore : Prop :=
  ∀ (s : State) (x : RegIx), 0x050 ≤ s.i.toNat → s.i.toNat + x.toNat ≤ 0xFFF →
    ∃ t, exec (.storeRegs x) s = .next t ∧
      ∀ u : State, u.i = t.i → (∀ a, u.mem.read a = t.mem.read a) →
        ∃ r, exec (.loadRegs x) u = .next r ∧ ∀ k : RegIx, k ≤ x → r.reg k = s.reg k

/-- A block store over the next instruction is what the very next fetch reads, with no delay (spec/20_memory.md section 5,
marked derived there). -/
def Obligations.StoredCodeIsFetchedNext : Prop :=
  ∀ (s : State) (x k : RegIx), 0x050 ≤ s.i.toNat → s.i.toNat + x.toNat ≤ 0xFFF → k < x →
    (s.pc + 2#16).toNat = s.i.toNat + k.toNat →
    ∃ t, exec (.storeRegs x) s = .next t ∧ t.fetchWord = .ok (wordOfBytes (s.reg k) (s.reg (k + 1#4)))

/-! ### Display -/

/-- R190: CLS. -/
def Obligations.ClearScreenUnsetsEveryCell : Prop :=
  ∀ s : State, ∃ t, exec .cls s = .next t ∧ (∀ c : Fin 2048, t.fb[c] = false) ∧ t.pc = s.pc + 2#16 ∧
    SameBut [.framebuffer, .pc] s t

/-- DRW: exactly the cells under set sprite bits are toggled, with wraparound on both axes, `VF` is 1 exactly when one of them
was set before, and a sprite that leaves memory faults with nothing changed (spec/43_display.md section 2; bit order D21,
`n = 0` D20, the fault D12). -/
def Obligations.DrawTogglesExactlyTheOpaqueCells : Prop :=
  ∀ (s : State) (x y : RegIx) (n : Nibble),
    (n = 0#4 ∨ s.i.toNat + n.toNat ≤ 0x1000 → ∃ t, exec (.drw x y n) s = .next t ∧
      (∀ c, OpaqueCell s (s.reg x).toNat (s.reg y).toNat n.toNat c → t.fb[c] = !s.fb[c]) ∧
      (∀ c, ¬ OpaqueCell s (s.reg x).toNat (s.reg y).toNat n.toNat c → t.fb[c] = s.fb[c]) ∧
      ((∃ c, OpaqueCell s (s.reg x).toNat (s.reg y).toNat n.toNat c ∧ s.fb[c] = true) → t.reg flagReg = 1#8) ∧
      ((∀ c, OpaqueCell s (s.reg x).toNat (s.reg y).toNat n.toNat c → s.fb[c] = false) → t.reg flagReg = 0#8) ∧
      RegsBut [flagReg] s t ∧ t.pc = s.pc + 2#16 ∧ SameBut [.framebuffer, .regs, .pc] s t) ∧
    (n ≠ 0#4 → 0x1000 < s.i.toNat + n.toNat →
      ∃ t, exec (.drw x y n) s = .next t ∧ Raises s t (.memoryBounds (max s.i.toNat 0x1000)))

/-- Drawing the same sprite twice restores the framebuffer, and the second draw reports a collision exactly when some cell
under a set bit of the sprite was unset at first (spec/43_display.md section 2, properties of the draw, marked derived there;
which cells those are rests on the bit order D21, and a draw of no rows on D20, log 13). -/
def Obligations.DrawingTwiceRestoresTheFramebuffer : Prop :=
  ∀ (s : State) (x y : RegIx) (n : Nibble), x ≠ flagReg → y ≠ flagReg → n = 0#4 ∨ s.i.toNat + n.toNat ≤ 0x1000 →
    ∃ t u, exec (.drw x y n) s = .next t ∧ exec (.drw x y n) t = .next u ∧
      RegsBut [flagReg] s u ∧ SameBut [.regs, .pc] s u ∧
      (u.reg flagReg = 1#8 ↔ ∃ c, OpaqueCell s (s.reg x).toNat (s.reg y).toNat n.toNat c ∧ s.fb[c] = false)

/-! ### Keys and timers -/

/-- SKP and SKNP: on the level of the key the register names, or `KeyIndex` above 15 (spec/44_keys_timers.md section 2; the
fault is the spec's decision D11). -/
def Obligations.KeySkipsOrFault : Prop :=
  ∀ (s : State) (x : RegIx),
    (∀ k : Fin 16, (s.reg x).toNat = k.val →
      (∃ t, exec (.skp x) s = .next t ∧ t.pc = s.pc + (if s.key[k] = true then 4#16 else 2#16) ∧ SameBut [.pc] s t) ∧
      (∃ t, exec (.sknp x) s = .next t ∧ t.pc = s.pc + (if s.key[k] = true then 2#16 else 4#16) ∧ SameBut [.pc] s t)) ∧
    (15 < (s.reg x).toNat →
      (∃ t, exec (.skp x) s = .next t ∧ Raises s t (.keyIndex (s.reg x))) ∧
      (∃ t, exec (.sknp x) s = .next t ∧ Raises s t (.keyIndex (s.reg x))))

/-- LD Vx, K: the least set key is stored; with none set the tick changes nothing, so that the next one polls again
(spec/44_keys_timers.md section 3; no release phase, D27). -/
def Obligations.KeyWaitTakesTheLeastKeyOrHalts : Prop :=
  ∀ (s : State) (x : RegIx),
    (∀ k : Fin 16, s.key[k] = true → (∀ j : Fin 16, j < k → s.key[j] = false) →
      ∃ t, exec (.ldVxK x) s = .next t ∧ (t.reg x).toNat = k.val ∧ RegsBut [x] s t ∧ t.pc = s.pc + 2#16 ∧
        SameBut [.regs, .pc] s t) ∧
    ((∀ k : Fin 16, s.key[k] = false) → exec (.ldVxK x) s = .next s)

/-- R202: LD Vx, DT reads the floor of the delay timer, for a timer in the range the invariant keeps. -/
def Obligations.DelayTimerReadIsTheFloor : Prop :=
  ∀ (s : State) (x : RegIx), TimerOk s.dt → ∃ t, exec (.ldVxDT x) s = .next t ∧
    ((t.reg x).toNat : Int) = s.dt.floor ∧ RegsBut [x] s t ∧ t.pc = s.pc + 2#16 ∧ SameBut [.regs, .pc] s t

/-- R204 and R205: the timers are loaded with the register's integer. -/
def Obligations.TimerLoads : Prop :=
  ∀ (s : State) (x : RegIx),
    (∃ t, exec (.ldDT x) s = .next t ∧ t.dt = ((s.reg x).toNat : Rat) ∧ t.pc = s.pc + 2#16 ∧ SameBut [.delay, .pc] s t) ∧
    (∃ t, exec (.ldST x) s = .next t ∧ t.st = ((s.reg x).toNat : Rat) ∧ t.pc = s.pc + 2#16 ∧ SameBut [.sound, .pc] s t)

/-! ### The host's operations and reset -/

/-- `update_timers(dt)`, `dt ≥ 0`: both timers lose `60 * dt`, clamped at zero (spec/60_exceptions.md section 6; exact
arithmetic is the spec's decision D16). -/
def Obligations.UpdateTimersDecrementsBoth : Prop :=
  ∀ (s : State) (dt : Rat), 0 ≤ dt → ∃ t, perform (.updateTimers dt) s = .next t ∧
    t.dt = max 0 (s.dt - 60 * dt) ∧ t.st = max 0 (s.st - 60 * dt) ∧ SameBut [.delay, .sound] s t

/-- Two updates are one update by the sum of their times, however the time is cut (spec/60_exceptions.md sections 5 and 6; exact
by D16). -/
def Obligations.TimerUpdatesAddUp : Prop :=
  ∀ (s : State) (a b : Rat), 0 ≤ a → 0 ≤ b →
    ∃ t u, perform (.updateTimers a) s = .next t ∧ perform (.updateTimers b) t = .next u ∧
      perform (.updateTimers (a + b)) s = .next u

/-- R239 and R240: the host sets and clears a key line; no other line and nothing else changes. -/
def Obligations.HostDrivesKeyLines : Prop :=
  ∀ (s : State) (k : Fin 16),
    (∃ t, perform (.setKey k.val) s = .next t ∧ t.key[k] = true ∧ (∀ j : Fin 16, j ≠ k → t.key[j] = s.key[j]) ∧
      SameBut [.keys] s t) ∧
    (∃ t, perform (.clearKey k.val) s = .next t ∧ t.key[k] = false ∧ (∀ j : Fin 16, j ≠ k → t.key[j] = s.key[j]) ∧
      SameBut [.keys] s t)

/-- Host calls outside their domain are refused by name (spec/60_exceptions.md section 5, host duties; D25). -/
def Obligations.HostCallsOutsideTheirDomainAreRefused : Prop :=
  ∀ (s : State) (k : Nat) (dt : Rat),
    (15 < k → perform (.setKey k) s = .refused (.keyOutOfRange k) ∧
      perform (.clearKey k) s = .refused (.keyOutOfRange k)) ∧
    (dt < 0 → perform (.updateTimers dt) s = .refused (.negativeElapsed dt))

/-- R250: the lone Bus reset clears display, timers and keys and touches nothing else, `FAULT` included. -/
def Obligations.BusResetClearsTheBusAlone : Prop :=
  ∀ s : State, ∃ t, perform .busReset s = .next t ∧ (∀ c : Fin 2048, t.fb[c] = false) ∧ t.dt = 0 ∧ t.st = 0 ∧
    (∀ k : Fin 16, t.key[k] = false) ∧ SameBut [.framebuffer, .delay, .sound, .keys] s t

/-- `load(rom)` of a ROM that fits, on any core, faulted or not: every state element takes its reset value and the ROM is in
place (spec/70_reset_and_hazards.md section 1; zero fill and zero registers are the spec's decision D14, one operation for all
of it D15, the font's bytes D2). -/
def Obligations.LoadBringsTheMachineToReset : Prop :=
  ∀ (s : State) (rom : List Byte), rom.length ≤ 3584 → ∃ t, perform (.load rom) s = .next t ∧
    answer (.load rom) s = .nothing ∧
    (∀ a < 0x050, Config.fontTable[a]? = some (t.mem.read a)) ∧
    (∀ a, 0x050 ≤ a → a < 0x200 → t.mem.read a = 0#8) ∧
    (∀ j (h : j < rom.length), t.mem.read (0x200 + j) = rom[j]) ∧
    (∀ a, 0x200 + rom.length ≤ a → t.mem.read a = 0#8) ∧
    (∀ r, t.reg r = 0#8) ∧ t.i = 0#16 ∧ t.pc = 0x200#16 ∧ t.sp = 0x050#16 ∧
    (∀ c : Fin 2048, t.fb[c] = false) ∧ (∀ k : Fin 16, t.key[k] = false) ∧ t.dt = 0 ∧ t.st = 0 ∧ t.fault = none

/-- A ROM of more than 3584 bytes is refused with `RomTooLarge` and the state, its latch included, stays as it was
(spec/70_reset_and_hazards.md section 1; that the old state stays is the spec's decision D15). -/
def Obligations.RomTooLargeLeavesTheState : Prop :=
  ∀ (s : State) (rom : List Byte), 3584 < rom.length →
    perform (.load rom) s = .next s ∧ answer (.load rom) s = .raised (.romTooLarge rom.length)

/-- The read-outs change nothing and answer the framebuffer, the floor of the delay timer and whether the sound counter is above
zero (spec/60_exceptions.md sections 5 and 6; the test on the counter is the spec's decision D17). -/
def Obligations.ReadOutsAnswerAndChangeNothing : Prop :=
  ∀ s : State, perform .display s = .next s ∧ perform .delayTimer s = .next s ∧ perform .soundActive s = .next s ∧
    answer .display s = .cells s.fb ∧
    (TimerOk s.dt → ∃ b : Byte, answer .delayTimer s = .byte b ∧ (b.toNat : Int) = s.dt.floor) ∧
    answer .soundActive s = .level (decide (0 < s.st))

/-- `State.reset` is what a load of the empty ROM leaves, and its first tick fetches `0x0000` and raises
`DecodeNativeCall(0x0000)` (spec/70_reset_and_hazards.md section 1, entry point, marked derived there). That `State.reset` is the
load of the empty ROM is the model's choice (log 3), and that the first word is `0x0000` rests on the zero fill, the spec's
decision D14 (logs 4 and 12). -/
def Obligations.EmptyRomFaultsAtTheFirstTick : Prop :=
  perform (.load []) State.reset = .next State.reset ∧
  ∃ t, step State.reset = .next t ∧ Raises State.reset t (.decodeNativeCall 0x0000#16)
end

