-- ==== Sys2Proof/Laws/Decode.lean ====
section
/-! SUPPORT. The fields of a packed word are what it was packed from, a word is the packing of its fields, and bytes and words
convert both ways. The decoder and encoder lemmas rest on these. -/

namespace Sys2Proof

@[simp] theorem fieldN_packXYN (a b c d : BitVec 4) : fieldN (packXYN a b c d) = d :=
  (BitVec.extractLsb'_append_eq_of_add_le (xhi := a ++ b ++ c) (xlo := d) (start := 0) (len := 4) (by decide)).trans
    BitVec.extractLsb'_eq_self

@[simp] theorem fieldY_packXYN (a b c d : BitVec 4) : fieldY (packXYN a b c d) = c :=
  (BitVec.extractLsb'_append_eq_of_le (xhi := a ++ b ++ c) (xlo := d) (start := 4) (len := 4) (by decide)).trans <|
  (BitVec.extractLsb'_append_eq_of_add_le (xhi := a ++ b) (xlo := c) (start := 0) (len := 4) (by decide)).trans
    BitVec.extractLsb'_eq_self

@[simp] theorem fieldX_packXYN (a b c d : BitVec 4) : fieldX (packXYN a b c d) = b :=
  (BitVec.extractLsb'_append_eq_of_le (xhi := a ++ b ++ c) (xlo := d) (start := 8) (len := 4) (by decide)).trans <|
  (BitVec.extractLsb'_append_eq_of_le (xhi := a ++ b) (xlo := c) (start := 4) (len := 4) (by decide)).trans <|
  (BitVec.extractLsb'_append_eq_of_add_le (xhi := a) (xlo := b) (start := 0) (len := 4) (by decide)).trans
    BitVec.extractLsb'_eq_self

@[simp] theorem fieldOp_packXYN (a b c d : BitVec 4) : fieldOp (packXYN a b c d) = a :=
  (BitVec.extractLsb'_append_eq_of_le (xhi := a ++ b ++ c) (xlo := d) (start := 12) (len := 4) (by decide)).trans <|
  (BitVec.extractLsb'_append_eq_of_le (xhi := a ++ b) (xlo := c) (start := 8) (len := 4) (by decide)).trans <|
  (BitVec.extractLsb'_append_eq_of_le (xhi := a) (xlo := b) (start := 4) (len := 4) (by decide)).trans
    BitVec.extractLsb'_eq_self

@[simp] theorem fieldNN_packXNN (a b : BitVec 4) (c : Byte) : fieldNN (packXNN a b c) = c :=
  (BitVec.extractLsb'_append_eq_of_add_le (xhi := a ++ b) (xlo := c) (start := 0) (len := 8) (by decide)).trans
    BitVec.extractLsb'_eq_self

@[simp] theorem fieldX_packXNN (a b : BitVec 4) (c : Byte) : fieldX (packXNN a b c) = b :=
  (BitVec.extractLsb'_append_eq_of_le (xhi := a ++ b) (xlo := c) (start := 8) (len := 4) (by decide)).trans <|
  (BitVec.extractLsb'_append_eq_of_add_le (xhi := a) (xlo := b) (start := 0) (len := 4) (by decide)).trans
    BitVec.extractLsb'_eq_self

@[simp] theorem fieldOp_packXNN (a b : BitVec 4) (c : Byte) : fieldOp (packXNN a b c) = a :=
  (BitVec.extractLsb'_append_eq_of_le (xhi := a ++ b) (xlo := c) (start := 12) (len := 4) (by decide)).trans <|
  (BitVec.extractLsb'_append_eq_of_le (xhi := a) (xlo := b) (start := 4) (len := 4) (by decide)).trans
    BitVec.extractLsb'_eq_self

@[simp] theorem fieldNNN_packNNN (a : BitVec 4) (c : Addr12) : fieldNNN (packNNN a c) = c :=
  (BitVec.extractLsb'_append_eq_of_add_le (xhi := a) (xlo := c) (start := 0) (len := 12) (by decide)).trans
    BitVec.extractLsb'_eq_self

@[simp] theorem fieldOp_packNNN (a : BitVec 4) (c : Addr12) : fieldOp (packNNN a c) = a :=
  (BitVec.extractLsb'_append_eq_of_le (xhi := a) (xlo := c) (start := 12) (len := 4) (by decide)).trans
    BitVec.extractLsb'_eq_self

/-- Two neighbouring fields are one field. -/
theorem joinFields {w i j m n : Nat} {x : BitVec w} (h : j = i + m) :
    x.extractLsb' j n ++ x.extractLsb' i m = x.extractLsb' i (n + m) :=
  BitVec.extractLsb'_append_extractLsb'_eq_extractLsb' h

/-- A word is its four nibbles. -/
theorem packXYN_fields (w : Word) : packXYN (fieldOp w) (fieldX w) (fieldY w) (fieldN w) = w := by
  simp only [fieldX, fieldY, fieldN, fieldOp, packXYN]
  rw [joinFields (by decide), joinFields (by decide), joinFields (by decide)]
  exact BitVec.extractLsb'_eq_self

/-- A word is its `op`, `x` and `nn`. -/
theorem packXNN_fields (w : Word) : packXNN (fieldOp w) (fieldX w) (fieldNN w) = w := by
  simp only [fieldX, fieldNN, fieldOp, packXNN]
  rw [joinFields (by decide), joinFields (by decide)]
  exact BitVec.extractLsb'_eq_self

/-- A word is its `op` and `nnn`. -/
theorem packNNN_fields (w : Word) : packNNN (fieldOp w) (fieldNNN w) = w := by
  simp only [fieldNNN, fieldOp, packNNN]
  rw [joinFields (by decide)]
  exact BitVec.extractLsb'_eq_self

/-- A word is its two bytes, high byte first. -/
@[simp] theorem wordOfBytes_bytes (w : Word) : wordOfBytes (highByte w) (lowByte w) = w := by
  simp only [wordOfBytes, highByte, lowByte]
  rw [joinFields (by decide)]
  exact BitVec.extractLsb'_eq_self

@[simp] theorem highByte_wordOfBytes (h l : Byte) : highByte (wordOfBytes h l) = h :=
  (BitVec.extractLsb'_append_eq_of_le (xhi := h) (xlo := l) (start := 8) (len := 8) (by decide)).trans
    BitVec.extractLsb'_eq_self

@[simp] theorem lowByte_wordOfBytes (h l : Byte) : lowByte (wordOfBytes h l) = l :=
  (BitVec.extractLsb'_append_eq_of_add_le (xhi := h) (xlo := l) (start := 0) (len := 8) (by decide)).trans
    BitVec.extractLsb'_eq_self

theorem wordOfBytes_toNat (h l : Byte) : (wordOfBytes h l).toNat = 256 * h.toNat + l.toNat := by
  show (h ++ l).toNat = _
  rw [BitVec.toNat_append, ← Nat.shiftLeft_add_eq_or_of_lt l.isLt, Nat.shiftLeft_eq]
  omega

theorem highByte_toNat (w : Word) : (highByte w).toNat = w.toNat / 256 := by
  have := w.isLt
  simp only [highByte, BitVec.extractLsb'_toNat, Nat.shiftRight_eq_div_pow]
  omega

theorem lowByte_toNat (w : Word) : (lowByte w).toNat = w.toNat % 256 := by
  simp [lowByte, BitVec.extractLsb'_toNat]

/-! ### Masking a packed word, for the opcode map -/

theorem and_F (a : BitVec 4) : a &&& 0xF#4 = a := BitVec.and_allOnes

theorem and_FF (a : Byte) : a &&& 0xFF#8 = a := BitVec.and_allOnes

/-- A mask of the two outer nibbles keeps `op` and `n`. -/
theorem packXYN_and_F00F (a b c d : BitVec 4) : packXYN a b c d &&& 0xF00F#16 = packXYN a 0#4 0#4 d := by
  show (a ++ b ++ c ++ d) &&& (0xF#4 ++ 0x0#4 ++ 0x0#4 ++ 0xF#4) = (a ++ 0#4 ++ 0#4 ++ d)
  rw [BitVec.and_append, BitVec.and_append, BitVec.and_append]
  simp only [and_F, BitVec.and_zero]

/-- A mask of the leading nibble keeps `op`. -/
theorem packXYN_and_F000 (a b c d : BitVec 4) : packXYN a b c d &&& 0xF000#16 = packXYN a 0#4 0#4 0#4 := by
  show (a ++ b ++ c ++ d) &&& (0xF#4 ++ 0x0#4 ++ 0x0#4 ++ 0x0#4) = (a ++ 0#4 ++ 0#4 ++ 0#4)
  rw [BitVec.and_append, BitVec.and_append, BitVec.and_append]
  simp only [and_F, BitVec.and_zero]

theorem packXNN_and_F000 (a b : BitVec 4) (c : Byte) : packXNN a b c &&& 0xF000#16 = packXNN a 0#4 0#8 := by
  show (a ++ b ++ c) &&& (0xF#4 ++ 0x0#4 ++ 0x00#8) = (a ++ 0#4 ++ 0#8)
  rw [BitVec.and_append, BitVec.and_append]
  simp only [and_F, BitVec.and_zero]

theorem packXNN_and_F0FF (a b : BitVec 4) (c : Byte) : packXNN a b c &&& 0xF0FF#16 = packXNN a 0#4 c := by
  show (a ++ b ++ c) &&& (0xF#4 ++ 0x0#4 ++ 0xFF#8) = (a ++ 0#4 ++ c)
  rw [BitVec.and_append, BitVec.and_append]
  simp only [and_F, and_FF, BitVec.and_zero]

theorem packNNN_and_F000 (a : BitVec 4) (c : Addr12) : packNNN a c &&& 0xF000#16 = packNNN a 0#12 := by
  show (a ++ c) &&& (0xF#4 ++ 0x000#12) = (a ++ 0#12)
  rw [BitVec.and_append]
  simp only [and_F, BitVec.and_zero]

/-- Selecting a row with mask `F00F` fixes `op` and `n`. -/
theorem fields_of_and_F00F {w p : Word} (h : w &&& 0xF00F#16 = p) : fieldOp w = fieldOp p ∧ fieldN w = fieldN p := by
  rw [← packXYN_fields w, packXYN_and_F00F] at h
  subst h
  simp only [fieldOp_packXYN, fieldN_packXYN, and_self]

/-- Selecting a row with mask `F000` fixes `op`. -/
theorem fields_of_and_F000 {w p : Word} (h : w &&& 0xF000#16 = p) : fieldOp w = fieldOp p := by
  rw [← packXNN_fields w, packXNN_and_F000] at h
  subst h
  simp only [fieldOp_packXNN]

/-- Selecting a row with mask `F0FF` fixes `op` and `nn`. -/
theorem fields_of_and_F0FF {w p : Word} (h : w &&& 0xF0FF#16 = p) : fieldOp w = fieldOp p ∧ fieldNN w = fieldNN p := by
  rw [← packXNN_fields w, packXNN_and_F0FF] at h
  subst h
  simp only [fieldOp_packXNN, fieldNN_packXNN, and_self]

end Sys2Proof
end

