-- ==== Sys2Proof/Laws/Memory.lean ====
section
/-! SUPPORT. Memory: read after write, that every operation keeps the canonical form and the writable space, and what the two
checks say. -/

namespace Sys2Proof.Machine

theorem Memory.read_insert (m : Memory) (a b : Nat) (v : Byte) :
    (Memory.insert m a v).read b = if b = a then v else m.read b := by
  induction m with
  | nil => simp [Memory.insert, Memory.read]
  | cons c rest ih =>
    obtain ⟨k, c⟩ := c
    simp only [Memory.insert]
    split
    · simp [Memory.read]
    · split
      · next h => subst h; simp only [Memory.read]; split <;> simp_all
      · simp only [Memory.read, ih]; split <;> split <;> simp_all

theorem Memory.read_erase (m : Memory) (a b : Nat) :
    (m.erase a).read b = if b = a then Memory.background a else m.read b := by
  induction m with
  | nil => simp only [Memory.erase, List.filter_nil, Memory.read]; split <;> simp_all
  | cons c rest ih =>
    obtain ⟨k, c⟩ := c
    simp only [Memory.erase, List.filter_cons] at ih ⊢
    by_cases h : k = a
    · subst h; simp only [bne_self_eq_false, Bool.false_eq_true, if_false, ih, Memory.read]; split <;> simp_all
    · simp only [bne_iff_ne, ne_eq, h, not_false_eq_true, if_true, Memory.read, ih]; split <;> split <;> simp_all

/-- Read after write: the byte written at its own address, the old byte at every other. -/
theorem Memory.read_write (m : Memory) (a b : Nat) (v : Byte) :
    (m.write a v).read b = if b = a then v else m.read b := by
  unfold Memory.write
  split
  · next h => rw [Memory.read_erase, h]
  · exact Memory.read_insert m a b v

@[simp] theorem Memory.read_write_same (m : Memory) (a : Nat) (v : Byte) : (m.write a v).read a = v := by
  simp [Memory.read_write]

theorem Memory.read_write_other (m : Memory) {a b : Nat} (v : Byte) (h : b ≠ a) : (m.write a v).read b = m.read b := by
  simp [Memory.read_write, h]

/-- A multi-byte store writes its own bytes and nothing else. -/
theorem Memory.read_writeBytes (bs : List Byte) : ∀ (m : Memory) (a b : Nat),
    (m.writeBytes a bs).read b = if a ≤ b then (bs[b - a]?).getD (m.read b) else m.read b := by
  induction bs with
  | nil => intro m a b; simp [Memory.writeBytes]
  | cons v bs ih =>
    intro m a b
    simp only [Memory.writeBytes, ih, Memory.read_write]
    by_cases h1 : a + 1 ≤ b
    · have : b - a = (b - (a + 1)) + 1 := by omega
      have h2 : b ≠ a := by omega
      have h3 : a ≤ b := by omega
      simp [h1, h2, h3, this]
    · by_cases h2 : b = a
      · subst h2; simp
      · have h3 : ¬ a ≤ b := by omega
        simp [h1, h2, h3]

theorem Memory.read_writeBytes_outside (m : Memory) {a b : Nat} {bs : List Byte} (h : b < a ∨ a + bs.length ≤ b) :
    (m.writeBytes a bs).read b = m.read b := by
  rw [Memory.read_writeBytes]
  split
  · rw [List.getElem?_eq_none (by omega)]; rfl
  · rfl

theorem Memory.read_writeBytes_inside (m : Memory) {a k : Nat} {bs : List Byte} (h : k < bs.length) :
    (m.writeBytes a bs).read (a + k) = bs[k] := by
  rw [Memory.read_writeBytes]; simp [h]

/-! ### The canonical form -/

theorem Memory.sorted_cons (k : Nat) (b : Byte) (m : Memory) :
    Memory.sorted ((k, b) :: m) = true ↔ (∀ c ∈ m, k < c.1) ∧ Memory.sorted m = true := by
  simp [Memory.sorted]

theorem Memory.mem_insert (m : Memory) (a : Nat) (v : Byte) (c : Host.Cell) (h : c ∈ Memory.insert m a v) :
    c = (a, v) ∨ c ∈ m := by
  induction m with
  | nil => simpa [Memory.insert] using h
  | cons d rest ih =>
    obtain ⟨k, d⟩ := d
    simp only [Memory.insert] at h
    split at h
    · simpa using h
    · split at h
      · simp only [List.mem_cons] at h ⊢; tauto
      · simp only [List.mem_cons] at h ⊢
        rcases h with h | h
        · tauto
        · rcases ih h with h | h <;> tauto

theorem Memory.sorted_insert (m : Memory) (a : Nat) (v : Byte) (h : Memory.sorted m = true) :
    Memory.sorted (Memory.insert m a v) = true := by
  induction m with
  | nil => rfl
  | cons d rest ih =>
    obtain ⟨k, d⟩ := d
    obtain ⟨h1, h2⟩ := (Memory.sorted_cons k d rest).1 h
    simp only [Memory.insert]
    split
    · next hk =>
      refine (Memory.sorted_cons _ _ _).2 ⟨fun c hc => ?_, h⟩
      rcases List.mem_cons.1 hc with rfl | hc
      · exact hk
      · exact lt_trans hk (h1 c hc)
    · split
      · next hk => subst hk; exact (Memory.sorted_cons _ _ _).2 ⟨h1, h2⟩
      · refine (Memory.sorted_cons _ _ _).2 ⟨fun c hc => ?_, ih h2⟩
        rcases Memory.mem_insert rest a v c hc with rfl | hc
        · show k < a; omega
        · exact h1 c hc

theorem Memory.sorted_erase (m : Memory) (a : Nat) (h : Memory.sorted m = true) : Memory.sorted (m.erase a) = true := by
  induction m with
  | nil => rfl
  | cons d rest ih =>
    obtain ⟨k, d⟩ := d
    obtain ⟨h1, h2⟩ := (Memory.sorted_cons k d rest).1 h
    simp only [Memory.erase, List.filter_cons] at ih ⊢
    split
    · exact (Memory.sorted_cons _ _ _).2 ⟨fun c hc => h1 c (List.mem_filter.1 hc).1, ih h2⟩
    · exact ih h2

/-- A write keeps the canonical form. -/
theorem Memory.wf_write (m : Memory) (a : Nat) (v : Byte) (h : Memory.wf m = true) : Memory.wf (m.write a v) = true := by
  simp only [Memory.wf, Bool.and_eq_true, List.all_eq_true, bne_iff_ne, ne_eq] at h ⊢
  unfold Memory.write
  split
  · exact ⟨Memory.sorted_erase m a h.1, fun c hc => h.2 c (List.mem_filter.1 hc).1⟩
  · next hv =>
    refine ⟨Memory.sorted_insert m a v h.1, fun c hc => ?_⟩
    rcases Memory.mem_insert m a v c hc with rfl | hc
    · exact hv
    · exact h.2 c hc

/-- A multi-byte store keeps the canonical form. -/
theorem Memory.wf_writeBytes (bs : List Byte) : ∀ (m : Memory) (a : Nat), Memory.wf m = true →
    Memory.wf (m.writeBytes a bs) = true := by
  induction bs with
  | nil => intro m a h; exact h
  | cons v bs ih => intro m a h; exact ih _ _ (Memory.wf_write m a v h)

/-- The empty list, which is the memory of `State.reset`, is canonical. -/
theorem Memory.wf_nil : Memory.wf [] = true := rfl

theorem Memory.inWritableSpace_write (m : Memory) (a : Nat) (v : Byte) (h : Memory.inWritableSpace m = true)
    (h1 : Config.fontEnd ≤ a) (h2 : a < Config.memSize) : Memory.inWritableSpace (m.write a v) = true := by
  simp only [Memory.inWritableSpace, List.all_eq_true, Bool.and_eq_true, decide_eq_true_eq] at h ⊢
  intro c hc
  unfold Memory.write at hc
  split at hc
  · exact h c (List.mem_filter.1 hc).1
  · rcases Memory.mem_insert m a v c hc with rfl | hc
    · exact ⟨h1, h2⟩
    · exact h c hc

/-- A store that passes the checks keeps the writable space. -/
theorem Memory.inWritableSpace_writeBytes (bs : List Byte) : ∀ (m : Memory) (a : Nat),
    Memory.inWritableSpace m = true → Config.fontEnd ≤ a → a + bs.length ≤ Config.memSize →
    Memory.inWritableSpace (m.writeBytes a bs) = true := by
  induction bs with
  | nil => intro m a h _ _; exact h
  | cons v bs ih =>
    intro m a h h1 h2
    simp only [List.length_cons] at h2
    exact ih _ _ (Memory.inWritableSpace_write m a v h h1 (by omega)) (by omega) (by omega)

/-- With nothing listed in the font region, the font reads as `FONT_TABLE`. -/
theorem Memory.read_font (m : Memory) (h : Memory.inWritableSpace m = true) {a : Nat} (ha : a < Config.fontEnd) :
    m.read a = Memory.background a := by
  induction m with
  | nil => rfl
  | cons d rest ih =>
    obtain ⟨k, d⟩ := d
    simp only [Memory.inWritableSpace, List.all_cons, Bool.and_eq_true, decide_eq_true_eq] at h ih
    simp only [Memory.read]
    rw [if_neg (by omega)]
    exact ih h.2

/-! ### The checks -/

theorem checkRead_none (a len : Nat) : checkRead a len = none ↔ len = 0 ∨ a + len ≤ Config.memSize := by
  unfold checkRead
  split
  · simp; omega
  · simp; omega

theorem checkRead_some (a len : Nat) (f : Fault) :
    checkRead a len = some f ↔ (len ≠ 0 ∧ Config.memSize < a + len) ∧ f = .memoryBounds (max a Config.memSize) := by
  unfold checkRead
  split
  · next h => simp [h, eq_comm]
  · next h => simp only [reduceCtorEq, h, false_and]

theorem checkWrite_none (a len : Nat) :
    checkWrite a len = none ↔ len = 0 ∨ (Config.fontEnd ≤ a ∧ a + len ≤ Config.memSize) := by
  unfold checkWrite
  split
  · next f h =>
    rw [checkRead_some] at h
    simp only [reduceCtorEq, false_iff]; omega
  · next h =>
    rw [checkRead_none] at h
    split
    · simp only [reduceCtorEq, false_iff]; omega
    · simp only [true_iff]; omega

/-- Everything the write check can answer. -/
theorem checkWrite_cases (a len : Nat) :
    (checkWrite a len = none ∧ (len = 0 ∨ (Config.fontEnd ≤ a ∧ a + len ≤ Config.memSize))) ∨
    (checkWrite a len = some (.memoryBounds (max a Config.memSize)) ∧ len ≠ 0 ∧ Config.memSize < a + len) ∨
    (checkWrite a len = some (.fontWrite a) ∧ len ≠ 0 ∧ a + len ≤ Config.memSize ∧ a < Config.fontEnd) := by
  unfold checkWrite checkRead
  split
  · next f h =>
    split at h
    · next h' => cases h; exact .inr (.inl ⟨rfl, h'⟩)
    · cases h
  · next h =>
    split at h
    · cases h
    · next h' =>
      split
      · exact .inr (.inr ⟨rfl, by omega, by omega, by omega⟩)
      · exact .inl ⟨rfl, by omega⟩

end Sys2Proof.Machine
end

