-- ==== Sys2Proof/Laws/State.lean ====
section
/-! SUPPORT. One lemma per state field per update, and the register file's read-after-write laws, so that no later proof
unfolds a record update. -/

namespace Sys2Proof.Machine

@[simp] theorem State.setReg_v (s : State) (x : RegIx) (b : Byte) : (s.setReg x b).v = s.v.set x.toNat b x.isLt := rfl
@[simp] theorem State.setReg_i (s : State) (x : RegIx) (b : Byte) : (s.setReg x b).i = s.i := rfl
@[simp] theorem State.setReg_pc (s : State) (x : RegIx) (b : Byte) : (s.setReg x b).pc = s.pc := rfl
@[simp] theorem State.setReg_sp (s : State) (x : RegIx) (b : Byte) : (s.setReg x b).sp = s.sp := rfl
@[simp] theorem State.setReg_mem (s : State) (x : RegIx) (b : Byte) : (s.setReg x b).mem = s.mem := rfl
@[simp] theorem State.setReg_fb (s : State) (x : RegIx) (b : Byte) : (s.setReg x b).fb = s.fb := rfl
@[simp] theorem State.setReg_key (s : State) (x : RegIx) (b : Byte) : (s.setReg x b).key = s.key := rfl
@[simp] theorem State.setReg_dt (s : State) (x : RegIx) (b : Byte) : (s.setReg x b).dt = s.dt := rfl
@[simp] theorem State.setReg_st (s : State) (x : RegIx) (b : Byte) : (s.setReg x b).st = s.st := rfl
@[simp] theorem State.setReg_fault (s : State) (x : RegIx) (b : Byte) : (s.setReg x b).fault = s.fault := rfl
@[simp] theorem State.setReg_draws (s : State) (x : RegIx) (b : Byte) : (s.setReg x b).draws = s.draws := rfl

@[simp] theorem State.setRegs_v (s : State) (v : Vector Byte 16) : (s.setRegs v).v = v := rfl
@[simp] theorem State.setRegs_i (s : State) (v : Vector Byte 16) : (s.setRegs v).i = s.i := rfl
@[simp] theorem State.setRegs_pc (s : State) (v : Vector Byte 16) : (s.setRegs v).pc = s.pc := rfl
@[simp] theorem State.setRegs_sp (s : State) (v : Vector Byte 16) : (s.setRegs v).sp = s.sp := rfl
@[simp] theorem State.setRegs_mem (s : State) (v : Vector Byte 16) : (s.setRegs v).mem = s.mem := rfl
@[simp] theorem State.setRegs_fb (s : State) (v : Vector Byte 16) : (s.setRegs v).fb = s.fb := rfl
@[simp] theorem State.setRegs_key (s : State) (v : Vector Byte 16) : (s.setRegs v).key = s.key := rfl
@[simp] theorem State.setRegs_dt (s : State) (v : Vector Byte 16) : (s.setRegs v).dt = s.dt := rfl
@[simp] theorem State.setRegs_st (s : State) (v : Vector Byte 16) : (s.setRegs v).st = s.st := rfl
@[simp] theorem State.setRegs_fault (s : State) (v : Vector Byte 16) : (s.setRegs v).fault = s.fault := rfl
@[simp] theorem State.setRegs_draws (s : State) (v : Vector Byte 16) : (s.setRegs v).draws = s.draws := rfl

@[simp] theorem State.setI_v (s : State) (a : Config.IndexWord) : (s.setI a).v = s.v := rfl
@[simp] theorem State.setI_i (s : State) (a : Config.IndexWord) : (s.setI a).i = a := rfl
@[simp] theorem State.setI_pc (s : State) (a : Config.IndexWord) : (s.setI a).pc = s.pc := rfl
@[simp] theorem State.setI_sp (s : State) (a : Config.IndexWord) : (s.setI a).sp = s.sp := rfl
@[simp] theorem State.setI_mem (s : State) (a : Config.IndexWord) : (s.setI a).mem = s.mem := rfl
@[simp] theorem State.setI_fb (s : State) (a : Config.IndexWord) : (s.setI a).fb = s.fb := rfl
@[simp] theorem State.setI_key (s : State) (a : Config.IndexWord) : (s.setI a).key = s.key := rfl
@[simp] theorem State.setI_dt (s : State) (a : Config.IndexWord) : (s.setI a).dt = s.dt := rfl
@[simp] theorem State.setI_st (s : State) (a : Config.IndexWord) : (s.setI a).st = s.st := rfl
@[simp] theorem State.setI_fault (s : State) (a : Config.IndexWord) : (s.setI a).fault = s.fault := rfl
@[simp] theorem State.setI_draws (s : State) (a : Config.IndexWord) : (s.setI a).draws = s.draws := rfl
@[simp] theorem State.setI_reg (s : State) (a : Config.IndexWord) (r : RegIx) : (s.setI a).reg r = s.reg r := rfl

@[simp] theorem State.setSp_v (s : State) (a : Word) : (s.setSp a).v = s.v := rfl
@[simp] theorem State.setSp_i (s : State) (a : Word) : (s.setSp a).i = s.i := rfl
@[simp] theorem State.setSp_pc (s : State) (a : Word) : (s.setSp a).pc = s.pc := rfl
@[simp] theorem State.setSp_sp (s : State) (a : Word) : (s.setSp a).sp = a := rfl
@[simp] theorem State.setSp_mem (s : State) (a : Word) : (s.setSp a).mem = s.mem := rfl
@[simp] theorem State.setSp_fb (s : State) (a : Word) : (s.setSp a).fb = s.fb := rfl
@[simp] theorem State.setSp_key (s : State) (a : Word) : (s.setSp a).key = s.key := rfl
@[simp] theorem State.setSp_dt (s : State) (a : Word) : (s.setSp a).dt = s.dt := rfl
@[simp] theorem State.setSp_st (s : State) (a : Word) : (s.setSp a).st = s.st := rfl
@[simp] theorem State.setSp_fault (s : State) (a : Word) : (s.setSp a).fault = s.fault := rfl
@[simp] theorem State.setSp_draws (s : State) (a : Word) : (s.setSp a).draws = s.draws := rfl
@[simp] theorem State.setSp_reg (s : State) (a : Word) (r : RegIx) : (s.setSp a).reg r = s.reg r := rfl

@[simp] theorem State.setMem_v (s : State) (m : Memory) : (s.setMem m).v = s.v := rfl
@[simp] theorem State.setMem_i (s : State) (m : Memory) : (s.setMem m).i = s.i := rfl
@[simp] theorem State.setMem_pc (s : State) (m : Memory) : (s.setMem m).pc = s.pc := rfl
@[simp] theorem State.setMem_sp (s : State) (m : Memory) : (s.setMem m).sp = s.sp := rfl
@[simp] theorem State.setMem_mem (s : State) (m : Memory) : (s.setMem m).mem = m := rfl
@[simp] theorem State.setMem_fb (s : State) (m : Memory) : (s.setMem m).fb = s.fb := rfl
@[simp] theorem State.setMem_key (s : State) (m : Memory) : (s.setMem m).key = s.key := rfl
@[simp] theorem State.setMem_dt (s : State) (m : Memory) : (s.setMem m).dt = s.dt := rfl
@[simp] theorem State.setMem_st (s : State) (m : Memory) : (s.setMem m).st = s.st := rfl
@[simp] theorem State.setMem_fault (s : State) (m : Memory) : (s.setMem m).fault = s.fault := rfl
@[simp] theorem State.setMem_draws (s : State) (m : Memory) : (s.setMem m).draws = s.draws := rfl
@[simp] theorem State.setMem_reg (s : State) (m : Memory) (r : RegIx) : (s.setMem m).reg r = s.reg r := rfl

@[simp] theorem State.setFb_v (s : State) (fb : Vector Bool 2048) : (s.setFb fb).v = s.v := rfl
@[simp] theorem State.setFb_i (s : State) (fb : Vector Bool 2048) : (s.setFb fb).i = s.i := rfl
@[simp] theorem State.setFb_pc (s : State) (fb : Vector Bool 2048) : (s.setFb fb).pc = s.pc := rfl
@[simp] theorem State.setFb_sp (s : State) (fb : Vector Bool 2048) : (s.setFb fb).sp = s.sp := rfl
@[simp] theorem State.setFb_mem (s : State) (fb : Vector Bool 2048) : (s.setFb fb).mem = s.mem := rfl
@[simp] theorem State.setFb_fb (s : State) (fb : Vector Bool 2048) : (s.setFb fb).fb = fb := rfl
@[simp] theorem State.setFb_key (s : State) (fb : Vector Bool 2048) : (s.setFb fb).key = s.key := rfl
@[simp] theorem State.setFb_dt (s : State) (fb : Vector Bool 2048) : (s.setFb fb).dt = s.dt := rfl
@[simp] theorem State.setFb_st (s : State) (fb : Vector Bool 2048) : (s.setFb fb).st = s.st := rfl
@[simp] theorem State.setFb_fault (s : State) (fb : Vector Bool 2048) : (s.setFb fb).fault = s.fault := rfl
@[simp] theorem State.setFb_draws (s : State) (fb : Vector Bool 2048) : (s.setFb fb).draws = s.draws := rfl
@[simp] theorem State.setFb_reg (s : State) (fb : Vector Bool 2048) (r : RegIx) : (s.setFb fb).reg r = s.reg r := rfl

@[simp] theorem State.setKeys_v (s : State) (key : Vector Bool 16) : (s.setKeys key).v = s.v := rfl
@[simp] theorem State.setKeys_i (s : State) (key : Vector Bool 16) : (s.setKeys key).i = s.i := rfl
@[simp] theorem State.setKeys_pc (s : State) (key : Vector Bool 16) : (s.setKeys key).pc = s.pc := rfl
@[simp] theorem State.setKeys_sp (s : State) (key : Vector Bool 16) : (s.setKeys key).sp = s.sp := rfl
@[simp] theorem State.setKeys_mem (s : State) (key : Vector Bool 16) : (s.setKeys key).mem = s.mem := rfl
@[simp] theorem State.setKeys_fb (s : State) (key : Vector Bool 16) : (s.setKeys key).fb = s.fb := rfl
@[simp] theorem State.setKeys_key (s : State) (key : Vector Bool 16) : (s.setKeys key).key = key := rfl
@[simp] theorem State.setKeys_dt (s : State) (key : Vector Bool 16) : (s.setKeys key).dt = s.dt := rfl
@[simp] theorem State.setKeys_st (s : State) (key : Vector Bool 16) : (s.setKeys key).st = s.st := rfl
@[simp] theorem State.setKeys_fault (s : State) (key : Vector Bool 16) : (s.setKeys key).fault = s.fault := rfl
@[simp] theorem State.setKeys_draws (s : State) (key : Vector Bool 16) : (s.setKeys key).draws = s.draws := rfl
@[simp] theorem State.setKeys_reg (s : State) (key : Vector Bool 16) (r : RegIx) : (s.setKeys key).reg r = s.reg r := rfl

@[simp] theorem State.setDT_v (s : State) (t : Config.TimerNumber) : (s.setDT t).v = s.v := rfl
@[simp] theorem State.setDT_i (s : State) (t : Config.TimerNumber) : (s.setDT t).i = s.i := rfl
@[simp] theorem State.setDT_pc (s : State) (t : Config.TimerNumber) : (s.setDT t).pc = s.pc := rfl
@[simp] theorem State.setDT_sp (s : State) (t : Config.TimerNumber) : (s.setDT t).sp = s.sp := rfl
@[simp] theorem State.setDT_mem (s : State) (t : Config.TimerNumber) : (s.setDT t).mem = s.mem := rfl
@[simp] theorem State.setDT_fb (s : State) (t : Config.TimerNumber) : (s.setDT t).fb = s.fb := rfl
@[simp] theorem State.setDT_key (s : State) (t : Config.TimerNumber) : (s.setDT t).key = s.key := rfl
@[simp] theorem State.setDT_dt (s : State) (t : Config.TimerNumber) : (s.setDT t).dt = t := rfl
@[simp] theorem State.setDT_st (s : State) (t : Config.TimerNumber) : (s.setDT t).st = s.st := rfl
@[simp] theorem State.setDT_fault (s : State) (t : Config.TimerNumber) : (s.setDT t).fault = s.fault := rfl
@[simp] theorem State.setDT_draws (s : State) (t : Config.TimerNumber) : (s.setDT t).draws = s.draws := rfl
@[simp] theorem State.setDT_reg (s : State) (t : Config.TimerNumber) (r : RegIx) : (s.setDT t).reg r = s.reg r := rfl

@[simp] theorem State.setST_v (s : State) (t : Config.TimerNumber) : (s.setST t).v = s.v := rfl
@[simp] theorem State.setST_i (s : State) (t : Config.TimerNumber) : (s.setST t).i = s.i := rfl
@[simp] theorem State.setST_pc (s : State) (t : Config.TimerNumber) : (s.setST t).pc = s.pc := rfl
@[simp] theorem State.setST_sp (s : State) (t : Config.TimerNumber) : (s.setST t).sp = s.sp := rfl
@[simp] theorem State.setST_mem (s : State) (t : Config.TimerNumber) : (s.setST t).mem = s.mem := rfl
@[simp] theorem State.setST_fb (s : State) (t : Config.TimerNumber) : (s.setST t).fb = s.fb := rfl
@[simp] theorem State.setST_key (s : State) (t : Config.TimerNumber) : (s.setST t).key = s.key := rfl
@[simp] theorem State.setST_dt (s : State) (t : Config.TimerNumber) : (s.setST t).dt = s.dt := rfl
@[simp] theorem State.setST_st (s : State) (t : Config.TimerNumber) : (s.setST t).st = t := rfl
@[simp] theorem State.setST_fault (s : State) (t : Config.TimerNumber) : (s.setST t).fault = s.fault := rfl
@[simp] theorem State.setST_draws (s : State) (t : Config.TimerNumber) : (s.setST t).draws = s.draws := rfl
@[simp] theorem State.setST_reg (s : State) (t : Config.TimerNumber) (r : RegIx) : (s.setST t).reg r = s.reg r := rfl

@[simp] theorem State.countDraw_v (s : State) : (s.countDraw).v = s.v := rfl
@[simp] theorem State.countDraw_i (s : State) : (s.countDraw).i = s.i := rfl
@[simp] theorem State.countDraw_pc (s : State) : (s.countDraw).pc = s.pc := rfl
@[simp] theorem State.countDraw_sp (s : State) : (s.countDraw).sp = s.sp := rfl
@[simp] theorem State.countDraw_mem (s : State) : (s.countDraw).mem = s.mem := rfl
@[simp] theorem State.countDraw_fb (s : State) : (s.countDraw).fb = s.fb := rfl
@[simp] theorem State.countDraw_key (s : State) : (s.countDraw).key = s.key := rfl
@[simp] theorem State.countDraw_dt (s : State) : (s.countDraw).dt = s.dt := rfl
@[simp] theorem State.countDraw_st (s : State) : (s.countDraw).st = s.st := rfl
@[simp] theorem State.countDraw_fault (s : State) : (s.countDraw).fault = s.fault := rfl
@[simp] theorem State.countDraw_draws (s : State) : (s.countDraw).draws = s.draws + 1 := rfl
@[simp] theorem State.countDraw_reg (s : State) (r : RegIx) : (s.countDraw).reg r = s.reg r := rfl

@[simp] theorem State.next_v (s : State) : (s.next).v = s.v := rfl
@[simp] theorem State.next_i (s : State) : (s.next).i = s.i := rfl
@[simp] theorem State.next_pc (s : State) : (s.next).pc = s.pc + 2#16 := rfl
@[simp] theorem State.next_sp (s : State) : (s.next).sp = s.sp := rfl
@[simp] theorem State.next_mem (s : State) : (s.next).mem = s.mem := rfl
@[simp] theorem State.next_fb (s : State) : (s.next).fb = s.fb := rfl
@[simp] theorem State.next_key (s : State) : (s.next).key = s.key := rfl
@[simp] theorem State.next_dt (s : State) : (s.next).dt = s.dt := rfl
@[simp] theorem State.next_st (s : State) : (s.next).st = s.st := rfl
@[simp] theorem State.next_fault (s : State) : (s.next).fault = s.fault := rfl
@[simp] theorem State.next_draws (s : State) : (s.next).draws = s.draws := rfl
@[simp] theorem State.next_reg (s : State) (r : RegIx) : (s.next).reg r = s.reg r := rfl

@[simp] theorem State.skip_v (s : State) : (s.skip).v = s.v := rfl
@[simp] theorem State.skip_i (s : State) : (s.skip).i = s.i := rfl
@[simp] theorem State.skip_pc (s : State) : (s.skip).pc = s.pc + 4#16 := rfl
@[simp] theorem State.skip_sp (s : State) : (s.skip).sp = s.sp := rfl
@[simp] theorem State.skip_mem (s : State) : (s.skip).mem = s.mem := rfl
@[simp] theorem State.skip_fb (s : State) : (s.skip).fb = s.fb := rfl
@[simp] theorem State.skip_key (s : State) : (s.skip).key = s.key := rfl
@[simp] theorem State.skip_dt (s : State) : (s.skip).dt = s.dt := rfl
@[simp] theorem State.skip_st (s : State) : (s.skip).st = s.st := rfl
@[simp] theorem State.skip_fault (s : State) : (s.skip).fault = s.fault := rfl
@[simp] theorem State.skip_draws (s : State) : (s.skip).draws = s.draws := rfl
@[simp] theorem State.skip_reg (s : State) (r : RegIx) : (s.skip).reg r = s.reg r := rfl

@[simp] theorem State.jump_v (s : State) (t : Config.PcWord) : (s.jump t).v = s.v := rfl
@[simp] theorem State.jump_i (s : State) (t : Config.PcWord) : (s.jump t).i = s.i := rfl
@[simp] theorem State.jump_pc (s : State) (t : Config.PcWord) : (s.jump t).pc = t := rfl
@[simp] theorem State.jump_sp (s : State) (t : Config.PcWord) : (s.jump t).sp = s.sp := rfl
@[simp] theorem State.jump_mem (s : State) (t : Config.PcWord) : (s.jump t).mem = s.mem := rfl
@[simp] theorem State.jump_fb (s : State) (t : Config.PcWord) : (s.jump t).fb = s.fb := rfl
@[simp] theorem State.jump_key (s : State) (t : Config.PcWord) : (s.jump t).key = s.key := rfl
@[simp] theorem State.jump_dt (s : State) (t : Config.PcWord) : (s.jump t).dt = s.dt := rfl
@[simp] theorem State.jump_st (s : State) (t : Config.PcWord) : (s.jump t).st = s.st := rfl
@[simp] theorem State.jump_fault (s : State) (t : Config.PcWord) : (s.jump t).fault = s.fault := rfl
@[simp] theorem State.jump_draws (s : State) (t : Config.PcWord) : (s.jump t).draws = s.draws := rfl
@[simp] theorem State.jump_reg (s : State) (t : Config.PcWord) (r : RegIx) : (s.jump t).reg r = s.reg r := rfl

@[simp] theorem State.takeFault_v (s : State) (f : Fault) : (s.takeFault f).v = s.v := rfl
@[simp] theorem State.takeFault_i (s : State) (f : Fault) : (s.takeFault f).i = s.i := rfl
@[simp] theorem State.takeFault_pc (s : State) (f : Fault) : (s.takeFault f).pc = s.pc := rfl
@[simp] theorem State.takeFault_sp (s : State) (f : Fault) : (s.takeFault f).sp = s.sp := rfl
@[simp] theorem State.takeFault_mem (s : State) (f : Fault) : (s.takeFault f).mem = s.mem := rfl
@[simp] theorem State.takeFault_fb (s : State) (f : Fault) : (s.takeFault f).fb = s.fb := rfl
@[simp] theorem State.takeFault_key (s : State) (f : Fault) : (s.takeFault f).key = s.key := rfl
@[simp] theorem State.takeFault_dt (s : State) (f : Fault) : (s.takeFault f).dt = s.dt := rfl
@[simp] theorem State.takeFault_st (s : State) (f : Fault) : (s.takeFault f).st = s.st := rfl
@[simp] theorem State.takeFault_fault (s : State) (f : Fault) : (s.takeFault f).fault = some f := rfl
@[simp] theorem State.takeFault_draws (s : State) (f : Fault) : (s.takeFault f).draws = s.draws := rfl
@[simp] theorem State.takeFault_reg (s : State) (f : Fault) (r : RegIx) : (s.takeFault f).reg r = s.reg r := rfl

/-- A register reads back what was written to it. -/
@[simp] theorem State.reg_setReg_same (s : State) (x : RegIx) (b : Byte) : (s.setReg x b).reg x = b := by
  simp [State.reg]

/-- A write to one register leaves every other alone. -/
theorem State.reg_setReg_other (s : State) (x r : RegIx) (b : Byte) (h : r ≠ x) : (s.setReg x b).reg r = s.reg r := by
  have h' : x.toNat ≠ r.toNat := fun e => h (BitVec.eq_of_toNat_eq e.symm)
  simp [State.reg, Vector.getElem_set_ne, h']

/-- Both at once. -/
theorem State.reg_setReg (s : State) (x r : RegIx) (b : Byte) :
    (s.setReg x b).reg r = if r = x then b else s.reg r := by
  split
  · next h => subst h; simp
  · next h => exact State.reg_setReg_other s x r b h

/-- A register of a replaced register file. -/
theorem State.reg_setRegs (s : State) (v : Vector Byte 16) (r : RegIx) : (s.setRegs v).reg r = v[r.toNat]'r.isLt := rfl

@[simp] theorem State.halt_eq (s : State) : s.halt = s := rfl

/-! ### `settle` -/

@[simp] theorem settle_ok (s t : State) : settle s (.ok t) = .next t := rfl

@[simp] theorem settle_error (s : State) (f : Fault) : settle s (.error f) = .next (s.takeFault f) := rfl

/-- Everything `settle` can do. -/
theorem settle_cases {s t : State} {r : Except Fault State} (h : settle s r = .next t) :
    r = .ok t ∨ ∃ f, r = .error f ∧ t = s.takeFault f := by
  cases r with
  | ok u => left; simpa [settle] using h
  | error f => right; exact ⟨f, rfl, by simpa [settle] using h.symm⟩

/-- `settle` always answers a next state. -/
theorem settle_next (s : State) (r : Except Fault State) : ∃ t, settle s r = .next t := by
  cases r with
  | ok u => exact ⟨u, rfl⟩
  | error f => exact ⟨s.takeFault f, rfl⟩

end Sys2Proof.Machine
end

