-- ==== Sys2Proof/Laws/Ops.lean ====
section
/-! SUPPORT. One lemma for each shared operation, saying everything it can do: the stack, the operand forms, the key latch, the
sprite engine's loop, and the tick. The proofs cite these and do not unfold the operations again. -/

namespace Sys2Proof.Machine

/-! ### The call stack -/

/-- Everything a push can do (R69). The third case needs an `sp` outside its range. -/
theorem State.push_cases (s : State) (ret : Word) :
    (s.push ret = .ok ((s.setMem (s.mem.writeBytes s.sp.toNat [highByte ret, lowByte ret])).setSp (s.sp + 2#16)) ∧
      (s.sp.toNat - Config.stackBase) / 2 < Config.stackCapacity ∧ Config.fontEnd ≤ s.sp.toNat) ∨
    (s.push ret = .error (.stackOverflow s.sp) ∧ Config.stackCapacity ≤ (s.sp.toNat - Config.stackBase) / 2) ∨
    (∃ f, s.push ret = .error f ∧ ¬ s.SpOk) := by
  unfold State.push
  split
  · next h => exact .inr (.inl ⟨rfl, h⟩)
  · next h =>
    rcases checkWrite_cases s.sp.toNat 2 with ⟨e, h'⟩ | ⟨e, h1, h2⟩ | ⟨e, h1, h2, h3⟩
    · rw [e]; exact .inl ⟨rfl, by omega, by omega⟩
    · rw [e]; exact .inr (.inr ⟨_, rfl, fun ⟨h3, h4, _⟩ => by simp only [Config.stackCapacity, Config.stackBase, Config.memSize] at *; omega⟩)
    · rw [e]; exact .inr (.inr ⟨_, rfl, fun ⟨h4, _, _⟩ => by simp only [Config.stackCapacity, Config.stackBase, Config.memSize, Config.fontEnd] at *; omega⟩)

/-- Everything a pop can do (R70). The third case needs an `sp` outside its range. -/
theorem State.pop_cases (s : State) :
    (s.pop = .ok (wordOfBytes (s.mem.read (s.sp.toNat - 2)) (s.mem.read (s.sp.toNat - 1)), s.setSp (s.sp - 2#16)) ∧
      Config.stackBase + 2 ≤ s.sp.toNat) ∨
    (s.pop = .error (.stackUnderflow s.sp) ∧ s.sp.toNat < Config.stackBase + 2) ∨
    (∃ f, s.pop = .error f ∧ ¬ s.SpOk) := by
  unfold State.pop
  split
  · next h => exact .inr (.inl ⟨rfl, h⟩)
  · next h =>
    split
    · next f e =>
      rw [checkRead_some] at e
      exact .inr (.inr ⟨_, rfl, fun ⟨_, h2, _⟩ => by simp only [Config.stackCapacity, Config.stackBase, Config.memSize] at *; omega⟩)
    · exact .inl ⟨rfl, by omega⟩

/-! ### Operand forms -/

theorem addrOfImm_toNat (nnn : Addr12) : (addrOfImm nnn).toNat = nnn.toNat := by
  simp only [addrOfImm, BitVec.truncate_eq_setWidth, BitVec.toNat_setWidth]
  have := nnn.isLt
  omega

theorem indexOfImm_toNat (nnn : Addr12) : (indexOfImm nnn).toNat = nnn.toNat := by
  simp only [indexOfImm, BitVec.truncate_eq_setWidth, BitVec.toNat_setWidth]
  have := nnn.isLt
  omega

theorem indexedTarget_toNat (s : State) (nnn : Addr12) :
    (indexedTarget s nnn).toNat = nnn.toNat + (s.reg 0x0#4).toNat := by
  simp only [indexedTarget, BitVec.toNat_add, addrOfImm_toNat, BitVec.truncate_eq_setWidth, BitVec.toNat_setWidth]
  have := nnn.isLt
  have := (s.reg 0x0#4).isLt
  omega

theorem indexSum_toNat (s : State) (x : RegIx) : (indexSum s x).toNat = (s.i.toNat + (s.reg x).toNat) % 65536 := by
  simp only [indexSum, BitVec.toNat_add, BitVec.truncate_eq_setWidth, BitVec.toNat_setWidth]
  have := (s.reg x).isLt
  omega

theorem glyphAddr_toNat (b : Byte) : (glyphAddr b).toNat = 5 * b.toNat := by
  simp only [glyphAddr, Config.glyphBytes, BitVec.toNat_mul, BitVec.truncate_eq_setWidth, BitVec.toNat_setWidth, BitVec.toNat_ofNat]
  have := b.isLt
  omega

@[simp] theorem State.dataAddr_zero (s : State) : s.dataAddr 0 = s.i.toNat := rfl

@[simp] theorem bcdDigits_length (b : Byte) : (bcdDigits b).length = 3 := rfl

/-- The three digits are the decimal digits (R173). -/
theorem bcdDigits_value (b : Byte) :
    ∃ h t o : Byte, bcdDigits b = [h, t, o] ∧ 100 * h.toNat + 10 * t.toNat + o.toNat = b.toNat ∧ t.toNat ≤ 9 ∧
      o.toNat ≤ 9 := by
  refine ⟨_, _, _, rfl, ?_⟩
  have := b.isLt
  simp only [BitVec.toNat_ofNat]
  omega

@[simp] theorem State.regBlock_length (s : State) (x : RegIx) : (s.regBlock x).length = x.toNat + 1 := by
  have := x.isLt
  simp [State.regBlock, blockLen]
  omega

/-- Byte `k` of the block is `V[k]` (R175). -/
theorem State.regBlock_getElem (s : State) (x k : RegIx) (h : k.toNat < (s.regBlock x).length) :
    (s.regBlock x)[k.toNat] = s.reg k := by
  simp [State.regBlock, State.reg]

/-- What a block load leaves in each register (R176). -/
theorem State.reg_loadedRegs (s : State) (x k : RegIx) :
    (s.setRegs (s.loadedRegs x)).reg k =
      if k.toNat ≤ x.toNat then s.mem.read (s.i.toNat + k.toNat) else s.reg k := by
  simp [State.loadedRegs, State.dataAddr, State.reg]

@[simp] theorem shiftOperand_eq (s : State) (x y : RegIx) : shiftOperand s x y = s.reg x := rfl

/-- In a timer's range the 8-bit view is its floor (R202). -/
theorem timerView_toNat (t : Config.TimerNumber) (h : TimerOk t) : ((timerView t).toNat : Int) = t.floor := by
  have h0 : 0 ≤ t.floor := Rat.le_floor_iff.2 (by simpa using h.1)
  have h1 : t.floor < 256 := Rat.floor_lt_iff.2 (lt_of_le_of_lt h.2 (by norm_num))
  simp only [timerView, BitVec.toNat_ofNat]
  omega

theorem timerLoad_ok (b : Byte) : TimerOk (timerLoad b) := by
  have : b.toNat ≤ 255 := by have := b.isLt; omega
  exact ⟨by simp [timerLoad], by unfold timerLoad; exact_mod_cast this⟩

theorem timerAfter_eq (t dt : Config.TimerNumber) : timerAfter t dt = max 0 (t - 60 * dt) := by
  unfold timerAfter Config.timerRate
  split
  · next h => rw [max_eq_right (by linarith)]
  · next h => rw [max_eq_left (by linarith)]

theorem timerAfter_ok (t dt : Config.TimerNumber) (h : TimerOk t) (hd : 0 ≤ dt) : TimerOk (timerAfter t dt) := by
  rw [timerAfter_eq]
  exact ⟨le_max_left _ _, max_le (by norm_num) (by have := h.2; linarith)⟩

/-! ### Flags -/

theorem State.reg_setResultAndFlag (s : State) (x r : RegIx) (b : Byte) (c : Bool) :
    (s.setResultAndFlag x b c).reg r = if r = flagReg then flagByte c else if r = x then b else s.reg r := by
  simp only [State.setResultAndFlag, State.reg_setReg]

theorem State.skipIf_eq (s : State) (c : Bool) :
    s.skipIf c = { s with pc := s.pc + if c = true then 4#16 else 2#16 } := by
  cases c <;> rfl

/-! ### Keys -/

theorem State.keyLevel_fin (s : State) (k : Fin 16) : s.keyLevel k.val = s.key[k] := by
  simp [State.keyLevel]

/-- `any_key` answers the least set key, or none when no key is set (R203). -/
theorem State.anyKey_cases (s : State) :
    (∃ k : Fin 16, s.anyKey = some k.val ∧ s.key[k] = true ∧ ∀ j : Fin 16, j < k → s.key[j] = false) ∨
    (s.anyKey = none ∧ ∀ k : Fin 16, s.key[k] = false) := by
  cases h : s.anyKey with
  | none =>
    refine .inr ⟨rfl, fun k => ?_⟩
    have := List.find?_eq_none.1 h k.val (List.mem_range.2 k.isLt)
    rw [State.keyLevel_fin] at this
    simpa using this
  | some n =>
    rw [State.anyKey, List.find?_range_eq_some] at h
    obtain ⟨h1, h2, h3⟩ := h
    rw [List.mem_range] at h2
    refine .inl ⟨⟨n, h2⟩, rfl, ?_, fun j hj => ?_⟩
    · rw [← State.keyLevel_fin]; exact h1
    · have := h3 j.val hj
      rw [State.keyLevel_fin] at this
      simpa using this

/-! ### The tick -/

/-- Everything a tick can do: nothing, latch a fault of fetch or decode, or run the decoded instruction (R101). -/
theorem step_cases {s : State} {o : Host.Outcome State Fault Refusal} (h : step s = o) :
    ((∃ f, s.fault = some f) ∧ o = .next s) ∨
    (s.fault = none ∧ ∃ f, s.fetchInstr = .error f ∧ o = .next (s.takeFault f)) ∨
    (s.fault = none ∧ ∃ i, s.fetchInstr = .ok i ∧ o = exec i s) := by
  subst h
  unfold step tickWith
  split
  · next f e => exact .inl ⟨⟨f, e⟩, rfl⟩
  · next e =>
    split
    · next f e' => exact .inr (.inl ⟨e, f, e', rfl⟩)
    · next i e' => exact .inr (.inr ⟨e, i, e', rfl⟩)

/-- What `fetchInstr` does with a fetched word: decode it, or name the fault (R101, R224). -/
theorem State.fetchInstr_of_word {s : State} {w : Word} (h : s.fetchWord = .ok w) :
    s.fetchInstr = match decodeWord w with
      | .error e => .error (decodeFault s e)
      | .ok i => .ok i := by
  cases hd : decodeWord w <;> simp only [State.fetchInstr, h, hd]

end Sys2Proof.Machine
end

