-- ==== Sys2Proof/Laws/Display.lean ====
section
/-! SUPPORT. What the sprite engine does, said once: which cells a draw toggles and what it reports (spec/43_display.md R191). -/

namespace Sys2Proof.Machine

/-- The cells under the set bits of the sprite, in the order they are drawn. -/
def opaqueCells (s : State) (px py n : Nat) : List (Fin 2048) :=
  ((spritePixels n).filter fun rc => spriteBit s rc.1 rc.2).map fun rc => cellIndex (px + rc.2) (py + rc.1)

theorem mem_spritePixels (n : Nat) (rc : Nat × Nat) : rc ∈ spritePixels n ↔ rc.1 < n ∧ rc.2 < 8 := by
  obtain ⟨r, c⟩ := rc
  simp [spritePixels]

theorem spritePixels_nodup (n : Nat) : (spritePixels n).Nodup := by
  unfold spritePixels
  rw [List.nodup_flatMap]
  refine ⟨fun r _ => List.nodup_range.map fun a b h => by simpa using h, ?_⟩
  refine List.nodup_range.imp fun {a b} hab => ?_
  simp only [Function.onFun, List.disjoint_left, List.mem_map, not_exists, not_and]
  rintro _ ⟨c, _, rfl⟩ d _ h
  exact hab (by simpa using (congrArg Prod.fst h).symm)

/-- Two pixels of one sprite of at most 32 rows never lie on one cell. -/
theorem cellIndex_injective {px py r c r' c' : Nat} (hr : r < 32) (hr' : r' < 32) (hc : c < 8) (hc' : c' < 8)
    (h : cellIndex (px + c) (py + r) = cellIndex (px + c') (py + r')) : r = r' ∧ c = c' := by
  have h : (py + r) % 32 * 64 + (px + c) % 64 = (py + r') % 32 * 64 + (px + c') % 64 := congrArg Fin.val h
  omega

/-- No cell is drawn twice in one draw (R191). -/
theorem opaqueCells_nodup (s : State) (px py n : Nat) (hn : n ≤ 32) : (opaqueCells s px py n).Nodup := by
  refine List.Nodup.map_on ?_ ((spritePixels_nodup n).filter _)
  rintro ⟨r, c⟩ h ⟨r', c'⟩ h' e
  have h := (mem_spritePixels n _).1 (List.mem_filter.1 h).1
  have h' := (mem_spritePixels n _).1 (List.mem_filter.1 h').1
  obtain ⟨rfl, rfl⟩ := cellIndex_injective (by omega) (by omega) h.2 h'.2 e
  rfl

/-- A cell is drawn exactly when it lies under a set bit of the sprite. -/
theorem mem_opaqueCells (s : State) (px py n : Nat) (c : Fin 2048) : c ∈ opaqueCells s px py n ↔ OpaqueCell s px py n c := by
  simp only [opaqueCells, OpaqueCell, List.mem_map, List.mem_filter, mem_spritePixels, Prod.exists]
  constructor
  · rintro ⟨r, k, ⟨⟨h1, h2⟩, h3⟩, rfl⟩
    exact ⟨r, k, h1, h2, rfl, h3⟩
  · rintro ⟨r, k, h1, h2, h3, h4⟩
    exact ⟨r, k, ⟨⟨h1, h2⟩, h4⟩, Fin.ext h3⟩

/-- Drawing pixel by pixel is toggling the cells of the set bits. -/
theorem drawSprite_eq (s : State) (px py n : Nat) :
    drawSprite s px py n = (opaqueCells s px py n).foldl (fun acc c => toggleCell c acc) (s.fb, false) := by
  unfold drawSprite opaqueCells
  generalize (s.fb, false) = acc
  induction spritePixels n generalizing acc with
  | nil => rfl
  | cons rc rest ih =>
    rw [List.foldl_cons, ih, List.filter_cons]
    unfold drawPixel
    cases spriteBit s rc.1 rc.2 <;> simp

/-- Toggling a list of different cells: each of them is flipped, every other cell stays, and a set one among them is
reported. -/
theorem foldl_toggleCell (cells : List (Fin 2048)) (hd : cells.Nodup) (fb : Vector Bool 2048) (hit : Bool) :
    (∀ c : Fin 2048, (cells.foldl (fun acc c => toggleCell c acc) (fb, hit)).1[c] =
      if c ∈ cells then !fb[c] else fb[c]) ∧
    (cells.foldl (fun acc c => toggleCell c acc) (fb, hit)).2 = (hit || cells.any fun c => fb[c]) := by
  induction cells generalizing fb hit with
  | nil => simp
  | cons k rest ih =>
    obtain ⟨hk, hd⟩ := List.nodup_cons.1 hd
    obtain ⟨h1, h2⟩ := ih hd (fb.set k.val (!fb[k]) k.isLt) (hit || fb[k])
    have other : ∀ c : Fin 2048, c ≠ k → (fb.set k.val (!fb[k]) k.isLt)[c] = fb[c] := fun c hc =>
      Vector.getElem_set_ne _ _ fun h => hc (Fin.ext h.symm)
    refine ⟨fun c => ?_, ?_⟩
    · rw [List.foldl_cons]
      refine (h1 c).trans ?_
      by_cases hc : c = k
      · subst hc
        rw [if_neg hk, if_pos List.mem_cons_self]
        exact Vector.getElem_set_self _
      · rw [other c hc]
        simp [hc]
    · rw [List.foldl_cons]
      refine h2.trans ?_
      rw [List.any_cons, Bool.or_assoc]
      congr 2
      rw [Bool.eq_iff_iff]
      simp only [List.any_eq_true]
      constructor
      · rintro ⟨c, hc, h⟩
        exact ⟨c, hc, by rw [← other c fun e => hk (e ▸ hc)]; exact h⟩
      · rintro ⟨c, hc, h⟩
        exact ⟨c, hc, by rw [other c fun e => hk (e ▸ hc)]; exact h⟩

/-- Everything a draw of at most 32 rows does: the cells under a set bit are flipped and no other, and a collision is a set cell
among them (R191). -/
theorem drawSprite_spec (s : State) (px py n : Nat) (hn : n ≤ 32) :
    (∀ c, OpaqueCell s px py n c → (drawSprite s px py n).1[c] = !s.fb[c]) ∧
    (∀ c, ¬ OpaqueCell s px py n c → (drawSprite s px py n).1[c] = s.fb[c]) ∧
    ((drawSprite s px py n).2 = true ↔ ∃ c, OpaqueCell s px py n c ∧ s.fb[c] = true) := by
  rw [drawSprite_eq]
  obtain ⟨h1, h2⟩ := foldl_toggleCell _ (opaqueCells_nodup s px py n hn) s.fb false
  refine ⟨fun c hc => ?_, fun c hc => ?_, ?_⟩
  · rw [h1, if_pos ((mem_opaqueCells s px py n c).2 hc)]
  · rw [h1, if_neg (mt (mem_opaqueCells s px py n c).1 hc)]
  · rw [h2]
    simp [mem_opaqueCells]

/-- Which cells a sprite covers depends on memory and `I` alone. -/
theorem opaqueCell_congr {s t : State} (hm : ∀ a, t.mem.read a = s.mem.read a) (hi : t.i = s.i) (px py n : Nat)
    (c : Fin 2048) : OpaqueCell t px py n c ↔ OpaqueCell s px py n c := by
  unfold OpaqueCell
  simp only [hm, hi]

end Sys2Proof.Machine
end

