-- ==== Sys2Proof/Laws/Exec.lean ====
section
/-! SUPPORT. One lemma for each meaning that can take more than one path, saying every path with its condition; the fixed
addresses are written out. A meaning not named here has one path and unfolds to it by `rfl`. -/

namespace Sys2Proof.Machine

/-- Raising a fault changes only the latch (R223). -/
theorem takeFault_raises (s : State) (f : Fault) : Raises s (s.takeFault f) f :=
  ⟨rfl, fun p hp => by cases p <;> simp_all [Part.same]⟩

/-- The invariant reads five fields. -/
theorem State.inv_of_same {s t : State} (hm : t.mem = s.mem) (hsp : t.sp = s.sp) (hd : t.dt = s.dt) (hst : t.st = s.st)
    (hf : t.fault = s.fault) (h : s.Inv) : t.Inv := by
  unfold State.Inv State.SpOk at *
  rw [hm, hsp, hd, hst, hf]
  exact h

/-- Latching a tick's fault keeps the invariant. -/
theorem State.inv_takeFault {s : State} {f : Fault} (hf : latchable (some f) = true) (h : s.Inv) : (s.takeFault f).Inv :=
  ⟨h.1, h.2.1, h.2.2.1, h.2.2.2.1, h.2.2.2.2.1, hf⟩

/-- Every path of RET (R120); the last needs an `sp` outside its range. -/
theorem execRet_cases (s : State) :
    (execRet s = .next ((s.setSp (s.sp - 2#16)).jump
        (wordOfBytes (s.mem.read (s.sp.toNat - 2)) (s.mem.read (s.sp.toNat - 1)))) ∧ 0x052 ≤ s.sp.toNat) ∨
    (execRet s = .next (s.takeFault (.stackUnderflow s.sp)) ∧ s.sp.toNat < 0x052) ∨
    (∃ f, execRet s = .next (s.takeFault f) ∧ ¬ s.SpOk) := by
  unfold execRet
  rcases s.pop_cases with ⟨e, h⟩ | ⟨e, h⟩ | ⟨f, e, h⟩ <;> rw [e]
  · exact .inl ⟨rfl, h⟩
  · exact .inr (.inl ⟨rfl, h⟩)
  · exact .inr (.inr ⟨f, rfl, h⟩)

/-- Every path of CALL (R122); the last needs an `sp` outside its range. -/
theorem execCall_cases (nnn : Addr12) (s : State) :
    (execCall nnn s = .next (((s.setMem (s.mem.writeBytes s.sp.toNat
        [highByte (s.pc + 2#16), lowByte (s.pc + 2#16)])).setSp (s.sp + 2#16)).jump (addrOfImm nnn)) ∧
      (s.sp.toNat - 0x050) / 2 < Config.stackCapacity ∧ 0x050 ≤ s.sp.toNat) ∨
    (execCall nnn s = .next (s.takeFault (.stackOverflow s.sp)) ∧
      Config.stackCapacity ≤ (s.sp.toNat - 0x050) / 2) ∨
    (∃ f, execCall nnn s = .next (s.takeFault f) ∧ ¬ s.SpOk) := by
  unfold execCall
  rcases s.push_cases (s.pc + 2#16) with ⟨e, h⟩ | ⟨e, h⟩ | ⟨f, e, h⟩ <;> rw [e]
  · exact .inl ⟨rfl, h⟩
  · exact .inr (.inl ⟨rfl, h⟩)
  · exact .inr (.inr ⟨f, rfl, h⟩)

/-- Every path of a store through `I` (R173, R175). -/
theorem State.storeAtI_cases (s : State) (bytes : List Byte) :
    (settle s (s.storeAtI bytes) = .next (s.setMem (s.mem.writeBytes s.i.toNat bytes)).next ∧
      (bytes.length = 0 ∨ (0x050 ≤ s.i.toNat ∧ s.i.toNat + bytes.length ≤ 0x1000))) ∨
    (settle s (s.storeAtI bytes) = .next (s.takeFault (.memoryBounds (max s.i.toNat 0x1000))) ∧
      bytes.length ≠ 0 ∧ 0x1000 < s.i.toNat + bytes.length) ∨
    (settle s (s.storeAtI bytes) = .next (s.takeFault (.fontWrite s.i.toNat)) ∧
      bytes.length ≠ 0 ∧ s.i.toNat + bytes.length ≤ 0x1000 ∧ s.i.toNat < 0x050) := by
  unfold State.storeAtI
  rw [State.dataAddr_zero]
  rcases checkWrite_cases s.i.toNat bytes.length with ⟨e, h⟩ | ⟨e, h⟩ | ⟨e, h⟩ <;> rw [e]
  · exact .inl ⟨rfl, h⟩
  · exact .inr (.inl ⟨rfl, h⟩)
  · exact .inr (.inr ⟨rfl, h⟩)

/-- Every path of LD B (R173). -/
theorem execLdB_cases (x : RegIx) (s : State) :
    (execLdB x s = .next (s.setMem (s.mem.writeBytes s.i.toNat (bcdDigits (s.reg x)))).next ∧
      0x050 ≤ s.i.toNat ∧ s.i.toNat + 2 ≤ 0xFFF) ∨
    (execLdB x s = .next (s.takeFault (.memoryBounds (max s.i.toNat 0x1000))) ∧ 0xFFF < s.i.toNat + 2) ∨
    (execLdB x s = .next (s.takeFault (.fontWrite s.i.toNat)) ∧ s.i.toNat < 0x050) := by
  unfold execLdB
  rcases s.storeAtI_cases (bcdDigits (s.reg x)) with ⟨e, h⟩ | ⟨e, h⟩ | ⟨e, h⟩ <;> rw [e] <;> rw [bcdDigits_length] at h
  · exact .inl ⟨rfl, by omega, by omega⟩
  · exact .inr (.inl ⟨rfl, by omega⟩)
  · exact .inr (.inr ⟨rfl, by omega⟩)

/-- Every path of LD [I], Vx (R175). -/
theorem execStoreRegs_cases (x : RegIx) (s : State) :
    (execStoreRegs x s = .next (s.setMem (s.mem.writeBytes s.i.toNat (s.regBlock x))).next ∧
      0x050 ≤ s.i.toNat ∧ s.i.toNat + x.toNat ≤ 0xFFF) ∨
    (execStoreRegs x s = .next (s.takeFault (.memoryBounds (max s.i.toNat 0x1000))) ∧ 0xFFF < s.i.toNat + x.toNat) ∨
    (execStoreRegs x s = .next (s.takeFault (.fontWrite s.i.toNat)) ∧ s.i.toNat < 0x050) := by
  unfold execStoreRegs
  rcases s.storeAtI_cases (s.regBlock x) with ⟨e, h⟩ | ⟨e, h⟩ | ⟨e, h⟩ <;> rw [e] <;> rw [State.regBlock_length] at h
  · exact .inl ⟨rfl, by omega, by omega⟩
  · exact .inr (.inl ⟨rfl, by omega⟩)
  · exact .inr (.inr ⟨rfl, by omega⟩)

/-- Every path of LD Vx, [I] (R176). -/
theorem execLoadRegs_cases (x : RegIx) (s : State) :
    (execLoadRegs x s = .next (s.setRegs (s.loadedRegs x)).next ∧ s.i.toNat + x.toNat ≤ 0xFFF) ∨
    (execLoadRegs x s = .next (s.takeFault (.memoryBounds (max s.i.toNat 0x1000))) ∧ 0xFFF < s.i.toNat + x.toNat) := by
  unfold execLoadRegs
  rw [State.dataAddr_zero]
  cases e : checkRead s.i.toNat (blockLen x) with
  | some f =>
    obtain ⟨⟨_, h⟩, rfl⟩ := (checkRead_some _ _ _).1 e
    have h : 0x1000 < s.i.toNat + (x.toNat + 1) := h
    exact .inr ⟨rfl, by omega⟩
  | none =>
    have h : x.toNat + 1 = 0 ∨ s.i.toNat + (x.toNat + 1) ≤ 0x1000 := (checkRead_none _ _).1 e
    exact .inl ⟨rfl, by omega⟩

/-- Every path of DRW (R191). -/
theorem execDrw_cases (x y : RegIx) (n : Nibble) (s : State) :
    (execDrw x y n s = .next (((s.setFb (drawSprite s (s.reg x).toNat (s.reg y).toNat n.toNat).1).setReg flagReg
        (flagByte (drawSprite s (s.reg x).toNat (s.reg y).toNat n.toNat).2)).next) ∧
      (n = 0#4 ∨ s.i.toNat + n.toNat ≤ 0x1000)) ∨
    (execDrw x y n s = .next (s.takeFault (.memoryBounds (max s.i.toNat 0x1000))) ∧
      n ≠ 0#4 ∧ 0x1000 < s.i.toNat + n.toNat) := by
  have zero : n.toNat = 0 ↔ n = 0#4 := ⟨fun h => BitVec.eq_of_toNat_eq h, fun h => by rw [h]; rfl⟩
  unfold execDrw
  rw [State.dataAddr_zero]
  cases e : checkRead s.i.toNat n.toNat with
  | some f =>
    obtain ⟨⟨h0, h⟩, rfl⟩ := (checkRead_some _ _ _).1 e
    exact .inr ⟨rfl, fun h' => h0 (zero.2 h'), h⟩
  | none => exact .inl ⟨rfl, ((checkRead_none _ _).1 e).imp_left zero.1⟩

/-- Both paths of SKP (R200). -/
theorem execSkp_cases (x : RegIx) (s : State) :
    (execSkp x s = .next (s.skipIf (s.keyLevel (s.reg x).toNat)) ∧ (s.reg x).toNat ≤ 15) ∨
    (execSkp x s = .next (s.takeFault (.keyIndex (s.reg x))) ∧ 15 < (s.reg x).toNat) := by
  unfold execSkp keyOperand
  by_cases h : 15 < (s.reg x).toNat
  · rw [if_pos h]; exact .inr ⟨rfl, h⟩
  · rw [if_neg h]; exact .inl ⟨rfl, by omega⟩

/-- Both paths of SKNP (R201). -/
theorem execSknp_cases (x : RegIx) (s : State) :
    (execSknp x s = .next (s.skipIf (!s.keyLevel (s.reg x).toNat)) ∧ (s.reg x).toNat ≤ 15) ∨
    (execSknp x s = .next (s.takeFault (.keyIndex (s.reg x))) ∧ 15 < (s.reg x).toNat) := by
  unfold execSknp keyOperand
  by_cases h : 15 < (s.reg x).toNat
  · rw [if_pos h]; exact .inr ⟨rfl, h⟩
  · rw [if_neg h]; exact .inl ⟨rfl, by omega⟩

/-- Both paths of LD Vx, K (R203). -/
theorem execLdVxK_cases (x : RegIx) (s : State) :
    (∃ k : Fin 16, execLdVxK x s = .next (s.setReg x (BitVec.ofNat 8 k.val)).next ∧ s.key[k] = true ∧
      ∀ j : Fin 16, j < k → s.key[j] = false) ∨
    (execLdVxK x s = .next s ∧ ∀ k : Fin 16, s.key[k] = false) := by
  unfold execLdVxK
  rcases s.anyKey_cases with ⟨k, e, h⟩ | ⟨e, h⟩ <;> rw [e]
  · exact .inl ⟨k, rfl, h⟩
  · exact .inr ⟨rfl, h⟩

end Sys2Proof.Machine
end

