-- ==== Sys2Proof/Laws/PerInstr.lean ====
section
/-! SUPPORT. The per-instruction family LegalEncoding: what the encoder writes, from each instruction's own entry, is a word the
opcode map gives to that entry's row (spec/30_encoding.md R96). -/

namespace Sys2Proof.Laws.LegalEncoding

/-- A word that selects a row of the map is well formed. -/
theorem wellFormed_of_row {w : Word} {r : OpcodeRow} (hr : r ∈ opcodeRows) (h : w &&& r.mask = r.pattern) :
    wellFormedWord w = true :=
  List.any_eq_true.2 ⟨r, hr, by simpa [OpcodeRow.selects] using h⟩

/-- The instruction's word is well formed. -/
def Statement (i : Instr) : Prop := wellFormedWord (encode i) = true

theorem cls : Statement .cls :=
  wellFormed_of_row (r := ⟨0xFFFF#16, 0x00E0#16⟩) (by decide) rfl

theorem ret : Statement .ret :=
  wellFormed_of_row (r := ⟨0xFFFF#16, 0x00EE#16⟩) (by decide) rfl

theorem jp (nnn : Addr12) : Statement (.jp nnn) :=
  wellFormed_of_row (r := ⟨0xF000#16, 0x1000#16⟩) (by decide) (packNNN_and_F000 _ _)

theorem call (nnn : Addr12) : Statement (.call nnn) :=
  wellFormed_of_row (r := ⟨0xF000#16, 0x2000#16⟩) (by decide) (packNNN_and_F000 _ _)

theorem seImm (x : RegIx) (nn : Byte) : Statement (.seImm x nn) :=
  wellFormed_of_row (r := ⟨0xF000#16, 0x3000#16⟩) (by decide) (packXNN_and_F000 _ _ _)

theorem sneImm (x : RegIx) (nn : Byte) : Statement (.sneImm x nn) :=
  wellFormed_of_row (r := ⟨0xF000#16, 0x4000#16⟩) (by decide) (packXNN_and_F000 _ _ _)

theorem seReg (x y : RegIx) : Statement (.seReg x y) :=
  wellFormed_of_row (r := ⟨0xF00F#16, 0x5000#16⟩) (by decide) (packXYN_and_F00F _ _ _ _)

theorem ldImm (x : RegIx) (nn : Byte) : Statement (.ldImm x nn) :=
  wellFormed_of_row (r := ⟨0xF000#16, 0x6000#16⟩) (by decide) (packXNN_and_F000 _ _ _)

theorem addImm (x : RegIx) (nn : Byte) : Statement (.addImm x nn) :=
  wellFormed_of_row (r := ⟨0xF000#16, 0x7000#16⟩) (by decide) (packXNN_and_F000 _ _ _)

theorem ldReg (x y : RegIx) : Statement (.ldReg x y) :=
  wellFormed_of_row (r := ⟨0xF00F#16, 0x8000#16⟩) (by decide) (packXYN_and_F00F _ _ _ _)

theorem orReg (x y : RegIx) : Statement (.orReg x y) :=
  wellFormed_of_row (r := ⟨0xF00F#16, 0x8001#16⟩) (by decide) (packXYN_and_F00F _ _ _ _)

theorem andReg (x y : RegIx) : Statement (.andReg x y) :=
  wellFormed_of_row (r := ⟨0xF00F#16, 0x8002#16⟩) (by decide) (packXYN_and_F00F _ _ _ _)

theorem xorReg (x y : RegIx) : Statement (.xorReg x y) :=
  wellFormed_of_row (r := ⟨0xF00F#16, 0x8003#16⟩) (by decide) (packXYN_and_F00F _ _ _ _)

theorem addReg (x y : RegIx) : Statement (.addReg x y) :=
  wellFormed_of_row (r := ⟨0xF00F#16, 0x8004#16⟩) (by decide) (packXYN_and_F00F _ _ _ _)

theorem sub (x y : RegIx) : Statement (.sub x y) :=
  wellFormed_of_row (r := ⟨0xF00F#16, 0x8005#16⟩) (by decide) (packXYN_and_F00F _ _ _ _)

theorem shr (x y : RegIx) : Statement (.shr x y) :=
  wellFormed_of_row (r := ⟨0xF00F#16, 0x8006#16⟩) (by decide) (packXYN_and_F00F _ _ _ _)

theorem subn (x y : RegIx) : Statement (.subn x y) :=
  wellFormed_of_row (r := ⟨0xF00F#16, 0x8007#16⟩) (by decide) (packXYN_and_F00F _ _ _ _)

theorem shl (x y : RegIx) : Statement (.shl x y) :=
  wellFormed_of_row (r := ⟨0xF00F#16, 0x800E#16⟩) (by decide) (packXYN_and_F00F _ _ _ _)

theorem sneReg (x y : RegIx) : Statement (.sneReg x y) :=
  wellFormed_of_row (r := ⟨0xF00F#16, 0x9000#16⟩) (by decide) (packXYN_and_F00F _ _ _ _)

theorem ldI (nnn : Addr12) : Statement (.ldI nnn) :=
  wellFormed_of_row (r := ⟨0xF000#16, 0xA000#16⟩) (by decide) (packNNN_and_F000 _ _)

theorem jpV0 (nnn : Addr12) : Statement (.jpV0 nnn) :=
  wellFormed_of_row (r := ⟨0xF000#16, 0xB000#16⟩) (by decide) (packNNN_and_F000 _ _)

theorem rnd (x : RegIx) (nn : Byte) : Statement (.rnd x nn) :=
  wellFormed_of_row (r := ⟨0xF000#16, 0xC000#16⟩) (by decide) (packXNN_and_F000 _ _ _)

theorem drw (x y : RegIx) (n : Nibble) : Statement (.drw x y n) :=
  wellFormed_of_row (r := ⟨0xF000#16, 0xD000#16⟩) (by decide) (packXYN_and_F000 _ _ _ _)

theorem skp (x : RegIx) : Statement (.skp x) :=
  wellFormed_of_row (r := ⟨0xF0FF#16, 0xE09E#16⟩) (by decide) (packXNN_and_F0FF _ _ _)

theorem sknp (x : RegIx) : Statement (.sknp x) :=
  wellFormed_of_row (r := ⟨0xF0FF#16, 0xE0A1#16⟩) (by decide) (packXNN_and_F0FF _ _ _)

theorem ldVxDT (x : RegIx) : Statement (.ldVxDT x) :=
  wellFormed_of_row (r := ⟨0xF0FF#16, 0xF007#16⟩) (by decide) (packXNN_and_F0FF _ _ _)

theorem ldVxK (x : RegIx) : Statement (.ldVxK x) :=
  wellFormed_of_row (r := ⟨0xF0FF#16, 0xF00A#16⟩) (by decide) (packXNN_and_F0FF _ _ _)

theorem ldDT (x : RegIx) : Statement (.ldDT x) :=
  wellFormed_of_row (r := ⟨0xF0FF#16, 0xF015#16⟩) (by decide) (packXNN_and_F0FF _ _ _)

theorem ldST (x : RegIx) : Statement (.ldST x) :=
  wellFormed_of_row (r := ⟨0xF0FF#16, 0xF018#16⟩) (by decide) (packXNN_and_F0FF _ _ _)

theorem addI (x : RegIx) : Statement (.addI x) :=
  wellFormed_of_row (r := ⟨0xF0FF#16, 0xF01E#16⟩) (by decide) (packXNN_and_F0FF _ _ _)

theorem ldF (x : RegIx) : Statement (.ldF x) :=
  wellFormed_of_row (r := ⟨0xF0FF#16, 0xF029#16⟩) (by decide) (packXNN_and_F0FF _ _ _)

theorem ldB (x : RegIx) : Statement (.ldB x) :=
  wellFormed_of_row (r := ⟨0xF0FF#16, 0xF033#16⟩) (by decide) (packXNN_and_F0FF _ _ _)

theorem storeRegs (x : RegIx) : Statement (.storeRegs x) :=
  wellFormed_of_row (r := ⟨0xF0FF#16, 0xF055#16⟩) (by decide) (packXNN_and_F0FF _ _ _)

theorem loadRegs (x : RegIx) : Statement (.loadRegs x) :=
  wellFormed_of_row (r := ⟨0xF0FF#16, 0xF065#16⟩) (by decide) (packXNN_and_F0FF _ _ _)

end Sys2Proof.Laws.LegalEncoding
end

