-- ==== Sys2Proof/Tests/Slice0.lean ====
section
/-! SUPPORT. The model's own tests. Every expected result comes from the spec: its opcode map (spec/30_encoding.md R96), its test
vectors (spec/95_test_vectors.md; a vector's id stands in each comment) and its worked examples. Section by section: what is
ill formed, decoding, one tick of each instruction, the host's operations, and a witness for the hypotheses of each
obligation. -/

namespace Sys2Proof.Tests

-- One proof after the other: with `decide +kernel` in many theorems at once the compiler runs out of threads.
set_option Elab.async false

open Sys2Proof Sys2Proof.Machine

/-! ### Helpers -/

/-- The convention of spec/95_test_vectors.md: the reset state with the word under test at `0x200`. -/
def at200 (w : Word) : State := State.reset.placeWord w

/-- The state after one tick. -/
def ticked (s : State) : State :=
  match step s with
  | .next t => t
  | .fault _ => s
  | .refused _ => s

/-- The state after one host operation. -/
def performed (op : Operation) (s : State) : State :=
  match perform op s with
  | .next t => t
  | .fault _ => s
  | .refused _ => s

/-- Registers set before a vector. -/
def withRegs (s : State) (rs : List (RegIx × Byte)) : State := rs.foldl (fun s r => s.setReg r.1 r.2) s

/-- Bytes placed before a vector. -/
def withBytes (s : State) (a : Nat) (bs : List Byte) : State := s.setMem (s.mem.writeBytes a bs)

/-- Keys set before a vector. -/
def withKeys (s : State) (ks : List Nat) : State := ks.foldl (fun s k => performed (.setKey k) s) s

/-- Framebuffer cells set before a vector. -/
def withCells (s : State) (cells : List (Fin 2048)) : State :=
  s.setFb (cells.foldl (fun fb c => fb.set c.val true c.isLt) s.fb)

/-- The bytes at an address. -/
def bytesAt (s : State) (a n : Nat) : List Byte := (List.range n).map fun k => s.mem.read (a + k)

/-- The framebuffer indices that are set, ascending. -/
def lit (s : State) : List Nat := (s.fb.toList.zipIdx.filter fun c => c.1).map fun c => c.2

/-! ### What is ill formed -/

/-- Words that select no row of the map (E1, E6, E7, E9, E12, E14), one for each place a word can be illegal. -/
theorem test_illFormedWords :
    ([0x0000#16, 0x00E1#16, 0x5121#16, 0x912F#16, 0x8128#16, 0x812F#16, 0xE09F#16, 0xF01F#16].all
      fun w => !wellFormedWord w) = true := by decide

/-- Words that do (E2, E3, E5, E8, E10, E11). -/
theorem test_wellFormedWords :
    ([0x00E0#16, 0x00EE#16, 0x5120#16, 0x8127#16, 0x81FE#16, 0xE0A1#16, 0xF065#16, 0xD010#16].all
      fun w => wellFormedWord w) = true := by decide

/-- A ROM of 3585 bytes, one of 3584 (S14). -/
theorem test_wellFormedRom :
    wellFormedRom (List.replicate 3585 0#8) = false ∧ wellFormedRom (List.replicate 3584 0#8) = true := by
  rw [wellFormedRom, wellFormedRom, List.length_replicate, List.length_replicate]
  decide

/-- Key line 16, line 15; a negative time, time 0 (T14, R246). -/
theorem test_wellFormedHostCalls :
    wellFormedKey 16 = false ∧ wellFormedKey 15 = true ∧ wellFormedElapsed (-1) = false ∧ wellFormedElapsed 0 = true := by
  decide

/-- The parameters of R7 fit one another. -/
theorem test_wellFormedConfig : wellFormedConfig = true := by decide

/-- Rows `8xy0` and `8xy1` differ in a fixed bit; a row does not differ from itself (R96). -/
theorem test_rowsDisjoint :
    OpcodeRow.disjoint ⟨0xF00F#16, 0x8000#16⟩ ⟨0xF00F#16, 0x8001#16⟩ = true ∧
    OpcodeRow.disjoint ⟨0xF000#16, 0x6000#16⟩ ⟨0xF000#16, 0x6000#16⟩ = false := by decide

/-- A memory that lists an address twice, out of order, or with the byte it reads as anyway, is not canonical; one that lists a
font byte is not in the writable space. -/
theorem test_illFormedMemory :
    Memory.wf [(0x300, 1#8), (0x300, 2#8)] = false ∧ Memory.wf [(0x301, 1#8), (0x300, 2#8)] = false ∧
    Memory.wf [(0x300, 0#8)] = false ∧ Memory.wf [(0x300, 1#8), (0x301, 2#8)] = true ∧
    Memory.inWritableSpace [(0x04F, 1#8)] = false ∧ Memory.inWritableSpace [(0x1000, 1#8)] = false := by decide

/-! ### Decoding: a word of each constructor, written from the pattern column of R96 -/

theorem test_decode_flow :
    decodeWord 0b0000000011101110#16 = .ok .ret ∧
    decodeWord 0b0001001000110100#16 = .ok (.jp 0x234#12) ∧
    decodeWord 0b0010001100000000#16 = .ok (.call 0x300#12) ∧
    decodeWord 0b0011001100101010#16 = .ok (.seImm 0x3#4 0x2A#8) ∧
    decodeWord 0b0100001100101010#16 = .ok (.sneImm 0x3#4 0x2A#8) ∧
    decodeWord 0b0101000100100000#16 = .ok (.seReg 0x1#4 0x2#4) ∧
    decodeWord 0b1001000100100000#16 = .ok (.sneReg 0x1#4 0x2#4) ∧
    decodeWord 0b1011001100000000#16 = .ok (.jpV0 0x300#12) := by decide

theorem test_decode_alu :
    decodeWord 0b0110101000101111#16 = .ok (.ldImm 0xA#4 0x2F#8) ∧
    decodeWord 0b0111000000100000#16 = .ok (.addImm 0x0#4 0x20#8) ∧
    decodeWord 0b1000000100100000#16 = .ok (.ldReg 0x1#4 0x2#4) ∧
    decodeWord 0b1000000100100001#16 = .ok (.orReg 0x1#4 0x2#4) ∧
    decodeWord 0b1000000100100010#16 = .ok (.andReg 0x1#4 0x2#4) ∧
    decodeWord 0b1000000100100011#16 = .ok (.xorReg 0x1#4 0x2#4) ∧
    decodeWord 0b1000000100100100#16 = .ok (.addReg 0x1#4 0x2#4) ∧
    decodeWord 0b1000000100100101#16 = .ok (.sub 0x1#4 0x2#4) ∧
    decodeWord 0b1000000100100110#16 = .ok (.shr 0x1#4 0x2#4) ∧
    decodeWord 0b1000000100100111#16 = .ok (.subn 0x1#4 0x2#4) ∧
    decodeWord 0b1000000111111110#16 = .ok (.shl 0x1#4 0xF#4) ∧
    decodeWord 0b1100001100001111#16 = .ok (.rnd 0x3#4 0x0F#8) := by decide

theorem test_decode_indexMemory :
    decodeWord 0b1010001100000000#16 = .ok (.ldI 0x300#12) ∧
    decodeWord 0b1111001000011110#16 = .ok (.addI 0x2#4) ∧
    decodeWord 0b1111000000101001#16 = .ok (.ldF 0x0#4) ∧
    decodeWord 0b1111000000110011#16 = .ok (.ldB 0x0#4) ∧
    decodeWord 0b1111001001010101#16 = .ok (.storeRegs 0x2#4) ∧
    decodeWord 0b1111010001100101#16 = .ok (.loadRegs 0x4#4) := by decide

theorem test_decode_display :
    decodeWord 0b0000000011100000#16 = .ok .cls ∧ decodeWord 0b1101000100100101#16 = .ok (.drw 0x1#4 0x2#4 0x5#4) := by
  decide

theorem test_decode_keysTimers :
    decodeWord 0b1110010110011110#16 = .ok (.skp 0x5#4) ∧
    decodeWord 0b1110010110100001#16 = .ok (.sknp 0x5#4) ∧
    decodeWord 0b1111001100000111#16 = .ok (.ldVxDT 0x3#4) ∧
    decodeWord 0b1111010000001010#16 = .ok (.ldVxK 0x4#4) ∧
    decodeWord 0b1111001100010101#16 = .ok (.ldDT 0x3#4) ∧
    decodeWord 0b1111000100011000#16 = .ok (.ldST 0x1#4) := by decide

/-- E1, E4, E6, E9, E12, E14. -/
theorem test_decode_illegal :
    decodeWord 0x0000#16 = .error (.nativeCall 0x0000#16) ∧ decodeWord 0x01E0#16 = .error (.nativeCall 0x01E0#16) ∧
    decodeWord 0x5121#16 = .error (.unknown 0x5121#16) ∧ decodeWord 0x912F#16 = .error (.unknown 0x912F#16) ∧
    decodeWord 0x8128#16 = .error (.unknown 0x8128#16) ∧ decodeWord 0xE09F#16 = .error (.unknown 0xE09F#16) ∧
    decodeWord 0xF085#16 = .error (.unknown 0xF085#16) := by decide

/-- S13: the bytes `12 34` are `JP 0x234`; one byte alone is no instruction. -/
theorem test_decode_byteOrder :
    decodeBytes [0x12#8, 0x34#8, 0x56#8] = .ok (.jp 0x234#12, [0x56#8]) ∧ decodeBytes [0x12#8] = .error .truncated ∧
    encodeBytes (.jp 0x234#12) = [0x12#8, 0x34#8] ∧ decodeTableWord 16 0x1234 = some (.jp 0x234#12) := by decide

/-! ### The tick (C1 to C7) -/

/-- C1 and C2: the last word of memory runs, and the next fetch is out of bounds. -/
theorem test_tick_lastWord :
    let s := (withBytes State.reset 0xFFE [0x60#8, 0x12#8]).jump 0xFFE#16
    (ticked s).reg 0x0#4 = 0x12#8 ∧ (ticked s).pc = 0x1000#16 ∧
    (ticked (ticked s)).fault = some (.fetchBounds 0x1000#16) ∧ (ticked (ticked s)).pc = 0x1000#16 := by decide +kernel

/-- C3 and C5: `0xFFF` is out of bounds; an odd `pc` is legal. -/
theorem test_tick_oddPc :
    (ticked (State.reset.jump 0xFFF#16)).fault = some (.fetchBounds 0xFFF#16) ∧
    (ticked ((withBytes State.reset 0x201 [0x60#8, 0x12#8]).jump 0x201#16)).pc = 0x203#16 ∧
    (ticked ((withBytes State.reset 0x201 [0x60#8, 0x12#8]).jump 0x201#16)).reg 0x0#4 = 0x12#8 := by decide +kernel

/-- C7: a faulted core does nothing. -/
theorem test_tick_faulted :
    (ticked ((at200 0x6012#16).takeFault (.decodeUnknown 0x5121#16))).reg 0x0#4 = 0#8 ∧
    (ticked ((at200 0x6012#16).takeFault (.decodeUnknown 0x5121#16))).pc = 0x200#16 := by decide +kernel

/-- F5: the font fetched as code is an unknown word. -/
theorem test_tick_font : (ticked (State.reset.jump 0x000#16)).fault = some (.decodeUnknown 0xF090#16) := by decide +kernel

/-! ### Control transfer -/

/-- F12 and F11. -/
theorem test_ret :
    let s := fun hi => (withBytes (at200 0x00EE#16) 0x050 [hi, 0x02#8]).setSp 0x052#16
    (ticked (s 0x02#8)).pc = 0x202#16 ∧ (ticked (s 0x02#8)).sp = 0x050#16 ∧
    bytesAt (ticked (s 0x02#8)) 0x050 2 = [0x02#8, 0x02#8] ∧ (ticked (s 0x10#8)).pc = 0x1002#16 := by decide +kernel

/-- F13, S10. -/
theorem test_ret_underflow :
    (ticked (at200 0x00EE#16)).fault = some (.stackUnderflow 0x050#16) ∧ (ticked (at200 0x00EE#16)).pc = 0x200#16 := by
  decide +kernel

/-- F1, F3. -/
theorem test_jp : (ticked (at200 0x1234#16)).pc = 0x234#16 ∧ (ticked (at200 0x1201#16)).pc = 0x201#16 := by decide +kernel

/-- F6, and F9 with one free slot left. -/
theorem test_call :
    (ticked (at200 0x2300#16)).pc = 0x300#16 ∧ (ticked (at200 0x2300#16)).sp = 0x052#16 ∧
    bytesAt (ticked (at200 0x2300#16)) 0x050 3 = [0x02#8, 0x02#8, 0x00#8] ∧
    (ticked ((at200 0x2300#16).setSp 0x06E#16)).sp = 0x070#16 ∧
    bytesAt (ticked ((at200 0x2300#16).setSp 0x06E#16)) 0x06E 2 = [0x02#8, 0x02#8] := by decide +kernel

/-- F10. -/
theorem test_call_overflow :
    (ticked ((at200 0x2300#16).setSp 0x070#16)).fault = some (.stackOverflow 0x070#16) ∧
    (ticked ((at200 0x2300#16).setSp 0x070#16)).sp = 0x070#16 ∧
    bytesAt (ticked ((at200 0x2300#16).setSp 0x070#16)) 0x070 2 = [0x00#8, 0x00#8] := by decide +kernel

/-- F17 and F15. -/
theorem test_jpV0 :
    (ticked (withRegs (at200 0xB300#16) [(0x0#4, 4#8), (0x3#4, 0x40#8)])).pc = 0x304#16 ∧
    (ticked (withRegs (at200 0xBFFF#16) [(0x0#4, 0xFF#8)])).pc = 0x10FE#16 := by decide +kernel

/-- F18, F19. -/
theorem test_seImm :
    (ticked (withRegs (at200 0x332A#16) [(0x3#4, 0x2A#8)])).pc = 0x204#16 ∧
    (ticked (withRegs (at200 0x332A#16) [(0x3#4, 0x2B#8)])).pc = 0x202#16 := by decide +kernel

/-- F21, F22. -/
theorem test_sneImm :
    (ticked (withRegs (at200 0x432A#16) [(0x3#4, 0x2A#8)])).pc = 0x202#16 ∧ (ticked (at200 0x432A#16)).pc = 0x204#16 := by
  decide +kernel

/-- F23, F24. -/
theorem test_seReg :
    (ticked (withRegs (at200 0x5120#16) [(0x1#4, 7#8), (0x2#4, 7#8)])).pc = 0x204#16 ∧
    (ticked (withRegs (at200 0x5120#16) [(0x1#4, 7#8), (0x2#4, 8#8)])).pc = 0x202#16 := by decide +kernel

/-- F26, F28. -/
theorem test_sneReg :
    (ticked (withRegs (at200 0x9120#16) [(0x1#4, 7#8), (0x2#4, 9#8)])).pc = 0x204#16 ∧
    (ticked (withRegs (at200 0x9330#16) [(0x3#4, 9#8)])).pc = 0x202#16 := by decide +kernel

/-! ### Registers and arithmetic. `pair` is a vector's `V[x]` and `VF` after. -/

/-- `V[x]` and `VF`. -/
def pair (s : State) (x : RegIx) : Byte × Byte := (s.reg x, s.reg flagReg)

/-- A1. -/
theorem test_ldImm : (ticked (at200 0x6A2F#16)).reg 0xA#4 = 0x2F#8 ∧ (ticked (at200 0x6A2F#16)).pc = 0x202#16 := by decide +kernel

/-- A5, A6. -/
theorem test_addImm :
    pair (ticked (withRegs (at200 0x7001#16) [(0x0#4, 0xFF#8)])) 0x0#4 = (0x00#8, 0#8) ∧
    (ticked (withRegs (at200 0x7F02#16) [(0xF#4, 0xFF#8)])).reg 0xF#4 = 0x01#8 := by decide +kernel

/-- A7. -/
theorem test_ldReg :
    (ticked (withRegs (at200 0x8120#16) [(0x2#4, 0x55#8)])).reg 0x1#4 = 0x55#8 ∧
    (ticked (withRegs (at200 0x8120#16) [(0x2#4, 0x55#8)])).reg 0x2#4 = 0x55#8 := by decide +kernel

/-- A8. -/
theorem test_or :
    pair (ticked (withRegs (at200 0x8121#16) [(0x1#4, 0xF0#8), (0x2#4, 0x0F#8), (0xF#4, 0x77#8)])) 0x1#4 =
      (0xFF#8, 0x77#8) := by decide +kernel

/-- S2. -/
theorem test_and :
    pair (ticked (withRegs (at200 0x8122#16) [(0x1#4, 7#8), (0x2#4, 9#8), (0xF#4, 0x77#8)])) 0x1#4 = (0x01#8, 0x77#8) := by
  decide +kernel

/-- S2. -/
theorem test_xor :
    pair (ticked (withRegs (at200 0x8123#16) [(0x1#4, 7#8), (0x2#4, 9#8), (0xF#4, 0x77#8)])) 0x1#4 = (0x0E#8, 0x77#8) := by
  decide +kernel

/-- S3. -/
theorem test_addReg :
    pair (ticked (withRegs (at200 0x8124#16) [(0x1#4, 0xFF#8), (0x2#4, 0x01#8)])) 0x1#4 = (0x00#8, 1#8) ∧
    pair (ticked (withRegs (at200 0x8124#16) [(0x1#4, 0x01#8), (0x2#4, 0x01#8), (0xF#4, 1#8)])) 0x1#4 = (0x02#8, 0#8) := by
  decide +kernel

/-- A13 and A14: register 15 as destination and as source. -/
theorem test_addReg_flag :
    (ticked (withRegs (at200 0x8F14#16) [(0xF#4, 0x10#8), (0x1#4, 1#8)])).reg 0xF#4 = 0#8 ∧
    pair (ticked (withRegs (at200 0x81F4#16) [(0x1#4, 0xFF#8), (0xF#4, 1#8)])) 0x1#4 = (0x00#8, 1#8) := by decide +kernel

/-- S4, A18. -/
theorem test_sub :
    pair (ticked (withRegs (at200 0x8125#16) [(0x1#4, 5#8), (0x2#4, 3#8)])) 0x1#4 = (0x02#8, 1#8) ∧
    pair (ticked (withRegs (at200 0x8125#16) [(0x1#4, 3#8), (0x2#4, 5#8)])) 0x1#4 = (0xFE#8, 0#8) ∧
    pair (ticked (withRegs (at200 0x8125#16) [(0x1#4, 5#8), (0x2#4, 5#8)])) 0x1#4 = (0x00#8, 1#8) := by decide +kernel

/-- A21, A22. -/
theorem test_sub_flag :
    (ticked (withRegs (at200 0x8F15#16) [(0xF#4, 9#8), (0x1#4, 3#8)])).reg 0xF#4 = 1#8 ∧
    pair (ticked (withRegs (at200 0x81F5#16) [(0xF#4, 1#8)])) 0x1#4 = (0xFF#8, 0#8) := by decide +kernel

/-- A23, A24. -/
theorem test_subn :
    pair (ticked (withRegs (at200 0x8127#16) [(0x1#4, 3#8), (0x2#4, 5#8)])) 0x1#4 = (0x02#8, 1#8) ∧
    pair (ticked (withRegs (at200 0x8127#16) [(0x1#4, 5#8), (0x2#4, 3#8)])) 0x1#4 = (0xFE#8, 0#8) := by decide +kernel

/-- A27, A28. -/
theorem test_shr :
    pair (ticked (withRegs (at200 0x8126#16) [(0x1#4, 3#8), (0x2#4, 0xFF#8)])) 0x1#4 = (1#8, 1#8) ∧
    pair (ticked (withRegs (at200 0x8106#16) [(0x1#4, 0x80#8), (0xF#4, 1#8)])) 0x1#4 = (0x40#8, 0#8) := by decide +kernel

/-- A30, A31. -/
theorem test_shr_flag :
    (ticked (withRegs (at200 0x8FF6#16) [(0xF#4, 3#8)])).reg 0xF#4 = 1#8 ∧
    (ticked (withRegs (at200 0x8FF6#16) [(0xF#4, 2#8)])).reg 0xF#4 = 0#8 := by decide +kernel

/-- A32, A33. -/
theorem test_shl :
    pair (ticked (withRegs (at200 0x812E#16) [(0x1#4, 0x81#8), (0x2#4, 0x55#8)])) 0x1#4 = (0x02#8, 1#8) ∧
    pair (ticked (withRegs (at200 0x810E#16) [(0x1#4, 0x40#8), (0xF#4, 1#8)])) 0x1#4 = (0x80#8, 0#8) := by decide +kernel

/-- A37 and A38 for every oracle: the byte is masked, and one is drawn even under the mask 0. -/
theorem test_rnd :
    (ticked (at200 0xC30F#16)).reg 0x3#4 = Config.oracleByte 0 &&& 0x0F#8 ∧ (ticked (at200 0xC300#16)).draws = 1 :=
  ⟨rfl, rfl⟩

/-! ### The address register and memory -/

/-- M2. -/
theorem test_ldI : (ticked (at200 0xAFFF#16)).i = 0x0FFF#16 := by decide +kernel

/-- M4, M5. -/
theorem test_addI :
    (ticked (withRegs ((at200 0xF21E#16).setI 0x0FFF#16) [(0x2#4, 1#8), (0xF#4, 5#8)])).i = 0x1000#16 ∧
    (ticked (withRegs ((at200 0xF21E#16).setI 0x0FFF#16) [(0x2#4, 1#8), (0xF#4, 5#8)])).reg 0xF#4 = 5#8 ∧
    (ticked (withRegs ((at200 0xF21E#16).setI 0xFFFF#16) [(0x2#4, 2#8)])).i = 0x0001#16 := by decide +kernel

/-- S12, M11. -/
theorem test_ldF :
    (ticked (withRegs (at200 0xF029#16) [(0x0#4, 0x0A#8)])).i = 0x0032#16 ∧
    (ticked (withRegs (at200 0xF029#16) [(0x0#4, 0xFF#8)])).i = 0x04FB#16 := by decide +kernel

/-- S8, M16, M22. -/
theorem test_ldB :
    bytesAt (ticked (withRegs ((at200 0xF033#16).setI 0x300#16) [(0x0#4, 156#8)])) 0x300 3 = [1#8, 5#8, 6#8] ∧
    bytesAt (ticked (withRegs ((at200 0xF033#16).setI 0xFFD#16) [(0x0#4, 199#8)])) 0xFFD 3 = [1#8, 9#8, 9#8] ∧
    bytesAt (ticked (withRegs ((at200 0xF033#16).setI 0x050#16) [(0x0#4, 7#8)])) 0x050 3 = [0#8, 0#8, 7#8] := by decide +kernel

/-- M17, M19, M20. -/
theorem test_ldB_faults :
    (ticked ((at200 0xF033#16).setI 0xFFE#16)).fault = some (.memoryBounds 0x1000) ∧
    (ticked ((at200 0xF033#16).setI 0x2000#16)).fault = some (.memoryBounds 0x2000) ∧
    (ticked ((at200 0xF033#16).setI 0x04F#16)).fault = some (.fontWrite 0x04F) ∧
    bytesAt (ticked ((at200 0xF033#16).setI 0x04F#16)) 0x04F 3 = [0x80#8, 0#8, 0#8] := by decide +kernel

/-- M24. -/
theorem test_storeRegs :
    let s := withRegs ((at200 0xF255#16).setI 0x400#16) [(0x0#4, 0x11#8), (0x1#4, 0x22#8), (0x2#4, 0x33#8), (0x3#4, 0x44#8)]
    bytesAt (ticked s) 0x400 4 = [0x11#8, 0x22#8, 0x33#8, 0x00#8] ∧ (ticked s).i = 0x400#16 := by decide +kernel

/-- M26, M28, M29. -/
theorem test_storeRegs_faults :
    (ticked ((at200 0xFF55#16).setI 0xFF1#16)).fault = some (.memoryBounds 0x1000) ∧
    (ticked ((at200 0xF055#16).setI 0x1000#16)).fault = some (.memoryBounds 0x1000) ∧
    (ticked (withRegs ((at200 0xF155#16).setI 0x04F#16) [(0x1#4, 0x5B#8)])).fault = some (.fontWrite 0x04F) ∧
    bytesAt (ticked (withRegs ((at200 0xF155#16).setI 0x04F#16) [(0x1#4, 0x5B#8)])) 0x050 1 = [0#8] := by decide +kernel

/-- M31, and M32's register above `x`. -/
theorem test_loadRegs :
    let s := withRegs ((at200 0xF465#16).setI 0x04B#16) [(0x5#4, 0x77#8)]
    ((List.range 6).map fun k => (ticked s).reg (BitVec.ofNat 4 k)) =
      [0xF0#8, 0x80#8, 0xF0#8, 0x80#8, 0x80#8, 0x77#8] ∧ (ticked s).i = 0x04B#16 := by decide +kernel

/-- M34. -/
theorem test_loadRegs_fault :
    let s := withRegs ((at200 0xFF65#16).setI 0xFF1#16) [(0x0#4, 9#8)]
    (ticked s).fault = some (.memoryBounds 0x1000) ∧ (ticked s).reg 0x0#4 = 9#8 := by decide +kernel

/-! ### Display -/

/-- X1. -/
theorem test_cls :
    let s := withRegs (withCells (at200 0x00E0#16) [0, 2047]) [(0xF#4, 1#8)]
    lit s = [0, 2047] ∧ lit (ticked s) = [] ∧ (ticked s).reg 0xF#4 = 1#8 := by decide +kernel

/-- X3: wraparound on both axes. -/
theorem test_drw :
    let s := withRegs ((withBytes (at200 0xD012#16) 0x300 [0x81#8, 0xFF#8]).setI 0x300#16) [(0x0#4, 63#8), (0x1#4, 31#8)]
    lit (ticked s) = [0, 1, 2, 3, 4, 5, 6, 63, 1990, 2047] ∧ (ticked s).reg 0xF#4 = 0#8 := by decide +kernel

/-- X9, X10 and X6: a collision, a transparent bit over a set cell, and a sprite that leaves memory. -/
theorem test_drw_flag :
    let s := fun b => withCells ((withBytes (at200 0xD011#16) 0x300 [b]).setI 0x300#16) [0]
    pair (ticked (s 0xC0#8)) 0xF#4 = (1#8, 1#8) ∧ lit (ticked (s 0xC0#8)) = [1] ∧
    pair (ticked (s 0x40#8)) 0xF#4 = (0#8, 0#8) ∧ lit (ticked (s 0x40#8)) = [0, 1] ∧
    (ticked ((at200 0xD012#16).setI 0xFFF#16)).fault = some (.memoryBounds 0x1000) := by decide +kernel

/-! ### Keys and timers -/

/-- K1, K2, K4. -/
theorem test_skp :
    (ticked (withKeys (withRegs (at200 0xE59E#16) [(0x5#4, 0x0A#8)]) [10])).pc = 0x204#16 ∧
    (ticked (withRegs (at200 0xE59E#16) [(0x5#4, 0x0A#8)])).pc = 0x202#16 ∧
    (ticked (withRegs (at200 0xE59E#16) [(0x5#4, 0x10#8)])).fault = some (.keyIndex 0x10#8) := by decide +kernel

/-- K6, K7, K8. -/
theorem test_sknp :
    (ticked (withRegs (at200 0xE5A1#16) [(0x5#4, 0x0A#8)])).pc = 0x204#16 ∧
    (ticked (withKeys (withRegs (at200 0xE5A1#16) [(0x5#4, 0x0A#8)]) [10])).pc = 0x202#16 ∧
    (ticked (withRegs (at200 0xE5A1#16) [(0x5#4, 0xFF#8)])).fault = some (.keyIndex 0xFF#8) := by decide +kernel

/-- K9. -/
theorem test_ldVxK :
    (ticked (withKeys (withRegs (at200 0xF40A#16) [(0x4#4, 0x99#8)]) [7, 3])).reg 0x4#4 = 3#8 ∧
    (ticked (withKeys (withRegs (at200 0xF40A#16) [(0x4#4, 0x99#8)]) [7, 3])).pc = 0x202#16 := by decide +kernel

/-- K10. -/
theorem test_ldVxK_halt :
    (ticked (withRegs (at200 0xF40A#16) [(0x4#4, 0x99#8)])).reg 0x4#4 = 0x99#8 ∧
    (ticked (withRegs (at200 0xF40A#16) [(0x4#4, 0x99#8)])).pc = 0x200#16 := by decide +kernel

/-- T1, T3, T4. -/
theorem test_ldVxDT :
    (ticked ((at200 0xF307#16).setDT (49 / 4))).reg 0x3#4 = 12#8 ∧
    (ticked ((at200 0xF307#16).setDT (9 / 10))).reg 0x3#4 = 0#8 ∧
    (ticked ((at200 0xF307#16).setDT 255)).reg 0x3#4 = 0xFF#8 := by decide +kernel

/-- T5. -/
theorem test_ldDT : (ticked (withRegs ((at200 0xF315#16).setDT (7 / 2)) [(0x3#4, 0xFF#8)])).dt = 255 := by decide +kernel

/-- T11, its first step. -/
theorem test_ldST :
    (ticked (withRegs (at200 0xF118#16) [(0x1#4, 0x3C#8)])).st = 60 ∧
    (ticked (withRegs (at200 0xF118#16) [(0x1#4, 0x3C#8)])).dt = 0 := by decide +kernel

/-! ### The host's operations -/

/-- S11 and T8. -/
theorem test_updateTimers :
    (performed (.updateTimers (1 / 2)) (State.reset.setDT 30)).dt = 0 ∧
    (performed (.updateTimers (1 / 240)) (State.reset.setDT 30)).dt = 119 / 4 ∧
    answer .delayTimer (State.reset.setDT (119 / 4)) = .byte 29#8 ∧
    answer .soundActive (State.reset.setST (1 / 2)) = .level true ∧ answer .soundActive State.reset = .level false := by
  decide +kernel

/-- T12, T14. -/
theorem test_keyLines :
    (performed (.setKey 3) State.reset).keyLevel 3 = true ∧
    (performed (.clearKey 3) (performed (.setKey 3) State.reset)).keyLevel 3 = false ∧
    perform (.setKey 16) State.reset = .refused (.keyOutOfRange 16) ∧
    perform (.updateTimers (-1)) State.reset = .refused (.negativeElapsed (-1)) := by
  exact ⟨by decide +kernel, by decide +kernel, rfl, rfl⟩

/-- T13. -/
theorem test_busReset :
    let s := withKeys ((withRegs (withCells State.reset [5]) [(0x0#4, 7#8)]).jump 0x20A#16) [2]
    lit (performed .busReset s) = [] ∧ (performed .busReset s).keyLevel 2 = false ∧
    (performed .busReset (s.setDT 5)).dt = 0 ∧ (performed .busReset s).reg 0x0#4 = 7#8 ∧
    (performed .busReset s).pc = 0x20A#16 := by decide +kernel

/-- Z1 and Z5: a load on a faulted core. -/
theorem test_load :
    let s := performed (.load [0x12#8, 0x00#8, 0xAB#8, 0xCD#8]) ((withRegs State.reset [(0x0#4, 7#8)]).takeFault (.stackOverflow 0x070#16))
    bytesAt s 0x1FF 6 = [0x00#8, 0x12#8, 0x00#8, 0xAB#8, 0xCD#8, 0x00#8] ∧ s.reg 0x0#4 = 0#8 ∧ s.pc = 0x200#16 ∧
    s.fault = none := by decide +kernel

/-- Z4. -/
theorem test_load_tooLarge :
    answer (.load (List.replicate 3585 0#8)) State.reset = .raised (.romTooLarge 3585) := by
  have h : wellFormedRom (List.replicate 3585 0#8) = false := test_wellFormedRom.1
  simp only [answer, State.load, h, Bool.false_eq_true, if_false, List.length_replicate]

/-- The font glyph of `A` stands at `0x032` (P3), the last font byte at `0x04F` (S15). -/
theorem test_reset_font :
    bytesAt State.reset 0x032 5 = [0xF0#8, 0x90#8, 0xF0#8, 0x90#8, 0x90#8] ∧
    bytesAt State.reset 0x04F 2 = [0x80#8, 0x00#8] := by decide +kernel

/-- `withFetchWord` puts the instruction where the next step runs it, from reset and from a faulted or unfetchable state. -/
theorem test_withFetchWord :
    (ticked (State.reset.withFetchWord 16 0x6A2F)).reg 0xA#4 = 0x2F#8 ∧
    (ticked (((State.reset.jump 0xFFFF#16).takeFault (.keyIndex 16#8)).withFetchWord 16 0x6A2F)).reg 0xA#4 = 0x2F#8 := by
  decide +kernel

/-! ### Witnesses: for each obligation with hypotheses, a state and operands that meet them all, each clause at a boundary -/

/-- The state of P8 before its fourth tick. -/
def selfModifying : State :=
  withRegs (((withBytes State.reset 0x206 [0xF1#8, 0x55#8]).jump 0x206#16).setI 0x208#16) [(0x0#4, 0x12#8), (0x1#4, 0x08#8)]

/-- A sprite of one row, `C0`, at `0x300`, over a framebuffer with cell 0 set. -/
def spriteOver (cells : List (Fin 2048)) : State := withCells ((withBytes State.reset 0x300 [0xC0#8]).setI 0x300#16) cells

theorem witness_EncodeOfDecodeIsTheWord : decodeWord 0x81FE#16 = .ok (.shl 0x1#4 0xF#4) := by decide

theorem witness_OpcodeRowsAreDisjoint :
    OpcodeRow.selects ⟨0xFFFF#16, 0x00E0#16⟩ 0x00E0#16 = true ∧ opcodeRows[0]? = some ⟨0xFFFF#16, 0x00E0#16⟩ := by decide

theorem witness_NativeCallWordsRaise :
    State.reset.fault = none ∧ State.reset.fetchWord = .ok 0x0000#16 ∧ fieldOp 0x0000#16 = 0x0#4 ∧
    0x0000#16 ≠ 0x00E0#16 ∧ 0x0000#16 ≠ 0x00EE#16 := by decide +kernel

theorem witness_UnassignedWordsRaise :
    (at200 0x5121#16).fault = none ∧ (at200 0x5121#16).fetchWord = .ok 0x5121#16 ∧
    decodeWord 0x5121#16 = .error (.unknown 0x5121#16) := by decide +kernel

theorem witness_FetchIsBigEndianOrFaults :
    0xFFF < (State.reset.jump 0xFFF#16).pc.toNat + 1 ∧ (State.reset.jump 0xFFF#16).fault = none ∧
    (State.reset.jump 0xFFE#16).pc.toNat + 1 ≤ 0xFFF := by decide

theorem witness_StepRunsTheDecodedInstruction :
    let s := at200 0x1234#16
    s.fault = none ∧ s.pc.toNat < 0xFFF ∧
    decodeBytes (s.mem.read s.pc.toNat :: s.mem.read (s.pc.toNat + 1) :: []) = .ok (.jp 0x234#12, []) := by
  decide +kernel

theorem witness_FaultedCoreTicksIdle : (State.reset.takeFault (.keyIndex 16#8)).fault = some (.keyIndex 16#8) := rfl

theorem witness_FaultingTickChangesOnlyTheLatch :
    State.reset.fault = none ∧ step State.reset = .next (ticked State.reset) ∧ (ticked State.reset).fault ≠ none :=
  ⟨rfl, rfl, by decide +kernel⟩

theorem witness_InstructionsRaiseOnlyTheirOwnFaults :
    State.reset.SpOk ∧ State.reset.fault = none ∧
    exec .ret State.reset = .next (State.reset.takeFault (.stackUnderflow 0x050#16)) ∧
    (State.reset.takeFault (.stackUnderflow 0x050#16)).fault = some (.stackUnderflow 0x050#16) :=
  ⟨by decide, rfl, rfl, rfl⟩

/-- For StepKeepsTheInvariant and for both parts of EveryReachableStateMeetsTheInvariant. -/
theorem witness_invariant :
    State.reset.Inv ∧ step State.reset = .next (ticked State.reset) ∧
    perform .tick State.reset = .next (ticked State.reset) ∧ Reachable State.reset :=
  ⟨by decide +kernel, rfl, rfl, .reset⟩

/-- The boundary states of the invariant: the stack full and the timers at both ends, with a fault latched. -/
theorem witness_invariant_boundary :
    ((((State.reset.setSp 0x070#16).setDT 255).setST 0).takeFault (.stackOverflow 0x070#16)).Inv := by decide +kernel

theorem witness_TheFontIsNeverMutated :
    step State.reset = .next (ticked State.reset) ∧ 0x04F < 0x050 ∧ Reachable State.reset :=
  ⟨rfl, by decide, .reset⟩

/-- A jump meets the premise of every clause. -/
theorem witness_StatePartsHaveOnlyTheirWriters (nnn : Addr12) :
    exec (.jp nnn) State.reset = .next (State.reset.jump (addrOfImm nnn)) ∧
    ∀ m x y n nn, Instr.jp nnn ≠ .ldI m ∧ Instr.jp nnn ≠ .addI x ∧ Instr.jp nnn ≠ .ldF x ∧ Instr.jp nnn ≠ .call m ∧
      Instr.jp nnn ≠ .ret ∧ Instr.jp nnn ≠ .ldB x ∧ Instr.jp nnn ≠ .storeRegs x ∧ Instr.jp nnn ≠ .cls ∧
      Instr.jp nnn ≠ .drw x y n ∧ Instr.jp nnn ≠ .ldDT x ∧ Instr.jp nnn ≠ .ldST x ∧ Instr.jp nnn ≠ .rnd x nn :=
  ⟨rfl, by simp⟩

theorem witness_FlagRegisterHasOnlyItsWriters :
    writesFlag (.ldImm 0xE#4 1#8) = false ∧ destinationIsFlag (.ldImm 0xE#4 1#8) = false ∧
    exec (.ldImm 0xE#4 1#8) State.reset = .next (State.reset.setReg 0xE#4 1#8).next ∧
    writesFlag (.addReg 0x1#4 0x2#4) = true ∧ State.reset.fault = none ∧
    exec (.addReg 0x1#4 0x2#4) State.reset = .next (State.reset.setResultAndFlag 0x1#4 0#8 false).next ∧
    (State.reset.setResultAndFlag 0x1#4 0#8 false).next.fault = none :=
  ⟨rfl, rfl, rfl, rfl, rfl, rfl, rfl⟩

theorem witness_SelfJumpIsAFixedPoint : (at200 0x1200#16).Ended := ⟨rfl, 0x200#12, by decide +kernel, by decide +kernel⟩

theorem witness_OnlyALoadEndsAFault :
    (∀ rom, Operation.setKey 3 ≠ .load rom) ∧
    perform (.setKey 3) (State.reset.takeFault (.keyIndex 16#8)) =
      .next (performed (.setKey 3) (State.reset.takeFault (.keyIndex 16#8))) ∧
    ¬ (State.reset.takeFault (.keyIndex 16#8)).fault = none ∧ Operation.setKey 3 ≠ .tick :=
  ⟨by simp, rfl, by decide +kernel, by simp⟩

theorem witness_PcMovesByTheFourOutcomes :
    exec .cls State.reset = .next (State.reset.setFb clearCells).next ∧
    ∀ nnn, Instr.cls ≠ .jp nnn ∧ Instr.cls ≠ .call nnn ∧ Instr.cls ≠ .jpV0 nnn ∧ Instr.cls ≠ .ret :=
  ⟨rfl, by simp⟩

theorem witness_RetPopsOrUnderflows :
    State.reset.SpOk ∧ State.reset.sp = 0x050#16 ∧
    (State.reset.setSp 0x052#16).SpOk ∧ (State.reset.setSp 0x052#16).sp ≠ 0x050#16 ∧
    (State.reset.setSp 0x070#16).SpOk ∧ (State.reset.setSp 0x070#16).sp ≠ 0x050#16 := by decide

theorem witness_CallPushesOrOverflows :
    (State.reset.setSp 0x070#16).SpOk ∧
    Config.stackCapacity ≤ ((State.reset.setSp 0x070#16).sp.toNat - 0x050) / 2 ∧
    (State.reset.setSp 0x06E#16).SpOk ∧
    ((State.reset.setSp 0x06E#16).sp.toNat - 0x050) / 2 < Config.stackCapacity := by decide

theorem witness_ReturnComesBackFromCall :
    State.reset.SpOk ∧ (State.reset.sp.toNat - 0x050) / 2 < Config.stackCapacity ∧
    exec (.call 0x300#12) State.reset = .next (ticked (at200 0x2300#16) |>.setMem [(0x050, 0x02#8), (0x051, 0x02#8)]) :=
  ⟨by decide, by decide, rfl⟩

/-- For AddRegistersWithCarry, SubtractionsWithBorrow and ShiftsInPlace. -/
theorem witness_notTheFlagRegister : (0xE#4 : RegIx) ≠ flagReg := by decide

/-- Digit 15, the last glyph. -/
theorem witness_FontAddressOfADigit :
    ((withRegs State.reset [(0x0#4, 0x0F#8)]).reg 0x0#4).toNat < 16 ∧
    (withRegs State.reset [(0x0#4, 0x0F#8)]).mem.inWritableSpace = true ∧ 4 < 5 := by decide +kernel

theorem witness_BcdStoreOrFaults :
    (0x050 ≤ (State.reset.setI 0x050#16).i.toNat ∧ (State.reset.setI 0x050#16).i.toNat + 2 ≤ 0xFFF) ∧
    (0x050 ≤ (State.reset.setI 0xFFD#16).i.toNat ∧ (State.reset.setI 0xFFD#16).i.toNat + 2 ≤ 0xFFF) ∧
    0xFFF < (State.reset.setI 0xFFE#16).i.toNat + 2 ∧ (State.reset.setI 0x04F#16).i.toNat < 0x050 := by decide

theorem witness_BlockStoreOrFaults :
    (0x050 ≤ (State.reset.setI 0x050#16).i.toNat ∧ (State.reset.setI 0x050#16).i.toNat + (0x0#4).toNat ≤ 0xFFF) ∧
    (0x050 ≤ (State.reset.setI 0xFF0#16).i.toNat ∧ (State.reset.setI 0xFF0#16).i.toNat + (0xF#4).toNat ≤ 0xFFF) ∧
    0xFFF < (State.reset.setI 0xFF1#16).i.toNat + (0xF#4).toNat ∧ (State.reset.setI 0x04F#16).i.toNat < 0x050 := by decide

theorem witness_BlockLoadOrFaults :
    State.reset.i.toNat + (0xF#4).toNat ≤ 0xFFF ∧ (0x0#4 : RegIx) ≤ 0x0#4 ∧ (0x0#4 : RegIx) < 0x1#4 ∧
    0xFFF < (State.reset.setI 0x1000#16).i.toNat + (0x0#4).toNat := by decide

/-- The state after the store is itself a later state with the stored memory. -/
theorem witness_BlockLoadInvertsBlockStore :
    0x050 ≤ (State.reset.setI 0xFF0#16).i.toNat ∧ (State.reset.setI 0xFF0#16).i.toNat + (0xF#4).toNat ≤ 0xFFF ∧
    ∀ t, exec (.storeRegs 0xF#4) (State.reset.setI 0xFF0#16) = .next t → t.i = t.i ∧ ∀ a, t.mem.read a = t.mem.read a :=
  ⟨by decide, by decide, fun _ _ => ⟨rfl, fun _ => rfl⟩⟩

theorem witness_StoredCodeIsFetchedNext :
    0x050 ≤ selfModifying.i.toNat ∧ selfModifying.i.toNat + (0x1#4).toNat ≤ 0xFFF ∧ (0x0#4 : RegIx) < 0x1#4 ∧
    (selfModifying.pc + 2#16).toNat = selfModifying.i.toNat + (0x0#4).toNat := by decide +kernel

/-- `n = 0` out of memory, the highest sprite of 15 rows, the lowest that leaves memory; an opaque cell that is set. -/
theorem witness_DrawTogglesExactlyTheOpaqueCells :
    ((0#4 : Nibble) = 0#4 ∨ (State.reset.setI 0x2000#16).i.toNat + (0#4).toNat ≤ 0x1000) ∧
    ((15#4 : Nibble) = 0#4 ∨ (State.reset.setI 0xFF1#16).i.toNat + (15#4).toNat ≤ 0x1000) ∧
    ((15#4 : Nibble) ≠ 0#4 ∧ 0x1000 < (State.reset.setI 0xFF2#16).i.toNat + (15#4).toNat) ∧
    (OpaqueCell (spriteOver [0]) 0 0 1 0 ∧ (spriteOver [0]).fb[(0 : Fin 2048)] = true) ∧
    (¬ OpaqueCell State.reset 0 0 0 0) :=
  ⟨.inl rfl, by decide, by decide, ⟨⟨0, 0, by decide, by decide, by decide, by decide +kernel⟩, by decide +kernel⟩,
    fun ⟨_, _, h, _⟩ => Nat.not_lt_zero _ h⟩

/-- The highest sprite of one row, a draw of no rows with `I` out of memory, and an opaque cell unset at first. -/
theorem witness_DrawingTwiceRestoresTheFramebuffer :
    (0x0#4 : RegIx) ≠ flagReg ∧ (0x1#4 : RegIx) ≠ flagReg ∧
    ((1#4 : Nibble) = 0#4 ∨ (State.reset.setI 0xFFF#16).i.toNat + (1#4).toNat ≤ 0x1000) ∧
    ((0#4 : Nibble) = 0#4 ∨ (State.reset.setI 0x2000#16).i.toNat + (0#4).toNat ≤ 0x1000) ∧
    ((1#4 : Nibble) = 0#4 ∨ (spriteOver [0]).i.toNat + (1#4).toNat ≤ 0x1000) ∧
    OpaqueCell (spriteOver [0]) 0 0 1 1 ∧ (spriteOver [0]).fb[(1 : Fin 2048)] = false :=
  ⟨by decide, by decide, .inr (by decide), .inl rfl, .inr (by decide +kernel), ⟨0, 1, by decide, by decide, by decide, by decide +kernel⟩, by decide +kernel⟩

theorem witness_KeySkipsOrFault :
    ((withRegs State.reset [(0x5#4, 15#8)]).reg 0x5#4).toNat = (15 : Fin 16).val ∧
    15 < ((withRegs State.reset [(0x5#4, 16#8)]).reg 0x5#4).toNat := by decide +kernel

theorem witness_KeyWaitTakesTheLeastKeyOrHalts :
    ((withKeys State.reset [7, 3]).key[(3 : Fin 16)] = true ∧
      ∀ j : Fin 16, j < 3 → (withKeys State.reset [7, 3]).key[j] = false) ∧
    ∀ k : Fin 16, State.reset.key[k] = false := by decide +kernel

/-- For DelayTimerReadIsTheFloor and ReadOutsAnswerAndChangeNothing: both ends of the range. -/
theorem witness_timerInRange : TimerOk (State.reset.setDT 255).dt ∧ TimerOk State.reset.dt := by decide +kernel

/-- For UpdateTimersDecrementsBoth and TimerUpdatesAddUp. -/
theorem witness_elapsedTimes : (0 : Rat) ≤ 0 ∧ (0 : Rat) ≤ 1 / 60 := by decide +kernel

theorem witness_HostDrivesKeyLines : (14 : Fin 16) ≠ 15 := by decide

theorem witness_HostCallsOutsideTheirDomainAreRefused : 15 < 16 ∧ (-1 : Rat) < 0 := by decide +kernel

/-- For LoadBringsTheMachineToReset and RomTooLargeLeavesTheState: the longest ROM that fits and the shortest that does not. -/
theorem witness_romLengths :
    (List.replicate 3584 0x12#8).length ≤ 3584 ∧ 3584 < (List.replicate 3585 0x12#8).length := by
  rw [List.length_replicate, List.length_replicate]
  decide

end Sys2Proof.Tests
end

namespace Sys2Proof.Machine

/-! ### The fetch (spec/20_memory.md R64) -/

/-- Out of bounds the fetch names the fault (R64). -/
theorem State.fetchWord_of_outOfBounds {s : State} (h : 0xFFF < s.pc.toNat + 1) :
    s.fetchWord = .error (.fetchBounds s.pc) :=
  if_pos h

/-- In bounds the fetch reads the two bytes at `pc`, high byte first (R64). -/
theorem State.fetchWord_of_inBounds {s : State} (h : s.pc.toNat + 1 ≤ 0xFFF) :
    s.fetchWord = .ok (wordOfBytes (s.mem.read s.pc.toNat) (s.mem.read (s.pc.toNat + 1))) :=
  if_neg (Nat.not_lt.2 h)

/-- A fault of the fetch comes before decoding (R101, R224). -/
theorem State.fetchInstr_of_error {s : State} {f : Fault} (h : s.fetchWord = .error f) : s.fetchInstr = .error f := by
  simp only [State.fetchInstr, h]

/-- With no fault latched, a tick latches a fault of fetch or decode and changes nothing else (R101, R223). -/
theorem step_raises_of_fetchInstr_error {s : State} {f : Fault} (hf : s.fault = none) (h : s.fetchInstr = .error f) :
    ∃ t, step s = .next t ∧ Raises s t f := by
  rcases step_cases (s := s) rfl with ⟨⟨g, hg⟩, _⟩ | ⟨_, g, hg, hstep⟩ | ⟨_, i, hi, _⟩
  · simp [hf] at hg
  · obtain rfl : f = g := by simpa [h] using hg
    exact ⟨s.takeFault f, hstep, takeFault_raises s f⟩
  · simp [h] at hi

/-- Settles O8: the two bounds cases of the fetch; its fault reaches the latch through `fetchInstr`. -/
theorem fetchIsBigEndianOrFaults : Obligations.FetchIsBigEndianOrFaults := by
  intro s
  refine ⟨fun hout => ?_, fun hin => ?_⟩
  · have hfetch := State.fetchWord_of_outOfBounds hout
    exact ⟨hfetch, fun hf => step_raises_of_fetchInstr_error hf (State.fetchInstr_of_error hfetch)⟩
  · exact ⟨_, State.fetchWord_of_inBounds hin, wordOfBytes_toNat _ _⟩

end Sys2Proof.Machine

namespace Sys2Proof

/-! ### The illegal words (spec/30_encoding.md section 3) -/

/-- With `op = 0` the decoder is `decodeOp0` (R95). -/
theorem decodeWord_of_fieldOp_zero {w : Word} (h : fieldOp w = 0x0#4) : decodeWord w = decodeOp0 w := by
  simp only [decodeWord, h]

/-- A word with `op = 0` is a native call unless it is `00E0` or `00EE` (R97). -/
theorem decodeWord_nativeCall {w : Word} (hop : fieldOp w = 0x0#4) (hcls : w ≠ 0x00E0#16) (hret : w ≠ 0x00EE#16) :
    decodeWord w = .error (.nativeCall w) := by
  rw [decodeWord_of_fieldOp_zero hop, decodeOp0, if_neg hcls, if_neg hret]

theorem decodeOp0_error {w : Word} {e : DecodeError} (h : decodeOp0 w = .error e) :
    e = .nativeCall w ∧ w ≠ 0x00E0#16 ∧ w ≠ 0x00EE#16 := by
  unfold decodeOp0 at h
  split at h
  · simp at h
  · split at h
    · simp at h
    · next hcls hret =>
      obtain rfl : DecodeError.nativeCall w = e := by simpa using h
      exact ⟨rfl, hcls, hret⟩

theorem decodeOp5_error {w : Word} {e : DecodeError} (h : decodeOp5 w = .error e) : e = .unknown w := by
  unfold decodeOp5 at h
  split at h <;> simp_all

theorem decodeOp9_error {w : Word} {e : DecodeError} (h : decodeOp9 w = .error e) : e = .unknown w := by
  unfold decodeOp9 at h
  split at h <;> simp_all

theorem decodeOp8_error {w : Word} {e : DecodeError} (h : decodeOp8 w = .error e) : e = .unknown w := by
  unfold decodeOp8 at h
  split at h <;> simp_all

theorem decodeOpE_error {w : Word} {e : DecodeError} (h : decodeOpE w = .error e) : e = .unknown w := by
  unfold decodeOpE at h
  split at h <;> simp_all

theorem decodeOpF_error {w : Word} {e : DecodeError} (h : decodeOpF w = .error e) : e = .unknown w := by
  unfold decodeOpF at h
  split at h <;> simp_all

/-- What the decoder can answer for an illegal word: `op` tells a native call from an unknown word (R97, R98). -/
theorem decodeWord_error_cases {w : Word} {e : DecodeError} (h : decodeWord w = .error e) :
    (e = .nativeCall w ∧ fieldOp w = 0x0#4 ∧ w ≠ 0x00E0#16 ∧ w ≠ 0x00EE#16) ∨ (e = .unknown w ∧ fieldOp w ≠ 0x0#4) := by
  by_cases hop : fieldOp w = 0x0#4
  · rw [decodeWord_of_fieldOp_zero hop] at h
    obtain ⟨he, hcls, hret⟩ := decodeOp0_error h
    exact .inl ⟨he, hop, hcls, hret⟩
  · refine .inr ⟨?_, hop⟩
    unfold decodeWord at h
    split at h
    -- the arms of `op` 0, 5, 8, 9, `E` and `F`; the others answer no error but the last, which is `.unknown w`
    case h_1 h0 => exact absurd h0 hop
    case h_6 => exact decodeOp5_error h
    case h_9 => exact decodeOp8_error h
    case h_10 => exact decodeOp9_error h
    case h_15 => exact decodeOpE_error h
    case h_16 => exact decodeOpF_error h
    all_goals simp_all

/-- The native calls are the words with `op = 0` but `00E0` and `00EE` (R97). -/
theorem decodeWord_eq_nativeCall_iff (w : Word) :
    decodeWord w = .error (.nativeCall w) ↔ fieldOp w = 0x0#4 ∧ w ≠ 0x00E0#16 ∧ w ≠ 0x00EE#16 := by
  refine ⟨fun h => ?_, fun ⟨hop, hcls, hret⟩ => decodeWord_nativeCall hop hcls hret⟩
  obtain ⟨_, hword⟩ | ⟨he, _⟩ := decodeWord_error_cases h
  · exact hword
  · simp at he

end Sys2Proof

namespace Sys2Proof.Machine

/-- A word that does not decode is a fault of fetch and decode (R97, R98, R101). -/
theorem State.fetchInstr_of_decodeError {s : State} {w : Word} {e : DecodeError} (hw : s.fetchWord = .ok w)
    (he : decodeWord w = .error e) : s.fetchInstr = .error (decodeFault s e) := by
  rw [State.fetchInstr_of_word hw, he]

/-- Settles O5: which words are native calls is the decoder's inversion; the fault reaches the latch through `fetchInstr`. -/
theorem nativeCallWordsRaise : Obligations.NativeCallWordsRaise := by
  refine ⟨decodeWord_eq_nativeCall_iff, fun s w hf hw hop hcls hret => ?_⟩
  have hdecode := decodeWord_nativeCall hop hcls hret
  exact step_raises_of_fetchInstr_error hf (State.fetchInstr_of_decodeError hw hdecode)

end Sys2Proof.Machine

namespace Sys2Proof.Machine

/-! ### Frames: what one update leaves alone, and how frames compose -/

theorem SameBut.trans {changed : List Part} {s t u : State} (hst : SameBut changed s t) (htu : SameBut changed t u) :
    SameBut changed s u := by
  intro p hp
  have h₁ := hst p hp
  have h₂ := htu p hp
  cases p <;> simp_all [Part.same]

theorem State.sameBut_jump {changed : List Part} (hpc : .pc ∈ changed) (s : State) (a : Config.PcWord) :
    SameBut changed s (s.jump a) := by
  intro p hp
  cases p <;> simp_all [Part.same]

theorem State.sameBut_setSp {changed : List Part} (hsp : .sp ∈ changed) (s : State) (a : Word) :
    SameBut changed s (s.setSp a) := by
  intro p hp
  cases p <;> simp_all [Part.same]

theorem State.sameBut_setMem {changed : List Part} (hmem : .memory ∈ changed) (s : State) (m : Memory) :
    SameBut changed s (s.setMem m) := by
  intro p hp
  cases p <;> simp_all [Part.same]

/-! ### Unconditional jumps (spec/40_flow.md R121, R123) -/

/-- Settles O24: JP is one jump, to the address zero-extended. -/
theorem jumpSetsPc : Obligations.JumpSetsPc := by
  intro s nnn
  exact ⟨s.jump (addrOfImm nnn), rfl, addrOfImm_toNat nnn, s.sameBut_jump (by simp) _⟩

/-- Settles O26: JP V0 is one jump, and its 16-bit sum cannot wrap. -/
theorem indexedJumpAddsV0 : Obligations.IndexedJumpAddsV0 := by
  intro s nnn
  exact ⟨s.jump (indexedTarget s nnn), rfl, indexedTarget_toNat s nnn, s.sameBut_jump (by simp) _⟩

/-! ### Conditional skips (spec/40_flow.md section 3) -/

/-- A skip only moves `pc`, as a jump to the chosen successor does. -/
theorem State.skipIf_eq_jump (s : State) (c : Bool) :
    s.skipIf c = s.jump (s.pc + if c = true then 4#16 else 2#16) :=
  s.skipIf_eq c

@[simp] theorem State.skipIf_pc (s : State) (c : Bool) : (s.skipIf c).pc = s.pc + if c = true then 4#16 else 2#16 := by
  rw [State.skipIf_eq_jump, State.jump_pc]

theorem State.sameBut_skipIf (s : State) (c : Bool) : SameBut [.pc] s (s.skipIf c) := by
  rw [State.skipIf_eq_jump]
  exact s.sameBut_jump (by simp) _

/-- Settles O27: SE and SNE are skips on opposite conditions. -/
theorem skipsOnAnImmediate : Obligations.SkipsOnAnImmediate := by
  intro s x nn
  refine ⟨⟨s.skipIf (s.reg x == nn), rfl, ?_, s.sameBut_skipIf _⟩,
    ⟨s.skipIf (s.reg x != nn), rfl, ?_, s.sameBut_skipIf _⟩⟩
  · simp
  · by_cases h : s.reg x = nn <;> simp [h]

/-! ### Return and call (spec/40_flow.md R120, R122) -/

/-- An `sp` in its range that is not the base leaves a whole slot below it (R27). -/
theorem State.SpOk.slot_below {s : State} (hsp : s.SpOk) (h : s.sp ≠ 0x050#16) : 0x052 ≤ s.sp.toNat := by
  obtain ⟨hbase, -, heven⟩ := hsp
  have hne : s.sp.toNat ≠ 0x050 := fun he => h (BitVec.eq_of_toNat_eq he)
  simp only [Config.stackBase] at hbase
  omega

theorem execRet_empty {s : State} (hsp : s.SpOk) (h : s.sp = 0x050#16) :
    execRet s = .next (s.takeFault (.stackUnderflow s.sp)) := by
  have hbase : s.sp.toNat = 0x050 := by rw [h]; rfl
  rcases execRet_cases s with ⟨_, hslot⟩ | ⟨hret, _⟩ | ⟨_, _, hbad⟩
  · omega
  · exact hret
  · exact absurd hsp hbad

theorem execRet_nonempty {s : State} (hsp : s.SpOk) (h : s.sp ≠ 0x050#16) :
    execRet s = .next ((s.setSp (s.sp - 2#16)).jump
      (wordOfBytes (s.mem.read (s.sp.toNat - 2)) (s.mem.read (s.sp.toNat - 1)))) := by
  have hslot := hsp.slot_below h
  rcases execRet_cases s with ⟨hret, _⟩ | ⟨_, hempty⟩ | ⟨_, _, hbad⟩
  · exact hret
  · omega
  · exact absurd hsp hbad

/-- Settles O23: the stack is empty exactly at the base; otherwise RET pops and jumps. -/
theorem retPopsOrUnderflows : Obligations.RetPopsOrUnderflows := by
  intro s hsp
  refine ⟨fun hempty => ⟨_, execRet_empty hsp hempty, takeFault_raises s _⟩, fun hne => ?_⟩
  have hslot := hsp.slot_below hne
  refine ⟨_, execRet_nonempty hsp hne, wordOfBytes_toNat _ _, ?_, ?_⟩
  · simp only [State.jump_sp, State.setSp_sp]
    bv_omega
  · exact (s.sameBut_setSp (by simp) _).trans (State.sameBut_jump (by simp) _ _)

theorem execCall_full {nnn : Addr12} {s : State} (hsp : s.SpOk)
    (h : Config.stackCapacity ≤ (s.sp.toNat - 0x050) / 2) :
    execCall nnn s = .next (s.takeFault (.stackOverflow s.sp)) := by
  rcases execCall_cases nnn s with ⟨_, hroom, _⟩ | ⟨hcall, _⟩ | ⟨_, _, hbad⟩
  · omega
  · exact hcall
  · exact absurd hsp hbad

theorem execCall_room {nnn : Addr12} {s : State} (hsp : s.SpOk)
    (h : (s.sp.toNat - 0x050) / 2 < Config.stackCapacity) :
    execCall nnn s = .next (((s.setMem (s.mem.writeBytes s.sp.toNat
      [highByte (s.pc + 2#16), lowByte (s.pc + 2#16)])).setSp (s.sp + 2#16)).jump (addrOfImm nnn)) := by
  rcases execCall_cases nnn s with ⟨hcall, _⟩ | ⟨_, hfull⟩ | ⟨_, _, hbad⟩
  · exact hcall
  · omega
  · exact absurd hsp hbad

/-- A two-byte store leaves every address but its two alone (R72). -/
theorem Memory.read_writeBytes_pair_other (m : Memory) {a b : Nat} (hi lo : Byte) (h : b ≠ a) (h' : b ≠ a + 1) :
    (m.writeBytes a [hi, lo]).read b = m.read b :=
  Memory.read_writeBytes_outside m (by simp only [List.length_cons, List.length_nil]; omega)

/-- Settles O25: with room CALL stores the two bytes of `pc + 2` at `sp` and jumps; with none it overflows. -/
theorem callPushesOrOverflows : Obligations.CallPushesOrOverflows := by
  intro s nnn hsp
  refine ⟨fun hfull => ⟨_, execCall_full hsp hfull, takeFault_raises s _⟩, fun hroom => ?_⟩
  refine ⟨_, execCall_room hsp hroom, ?_, ?_, ?_, ?_, addrOfImm_toNat nnn, ?_⟩
  · rw [← highByte_toNat]
    exact congrArg BitVec.toNat (Memory.read_writeBytes_inside s.mem (k := 0) (by simp))
  · rw [← lowByte_toNat]
    exact congrArg BitVec.toNat (Memory.read_writeBytes_inside s.mem (k := 1) (by simp))
  · exact fun a h h' => Memory.read_writeBytes_pair_other s.mem _ _ h h'
  · obtain ⟨_, htop, _⟩ := hsp
    simp only [Config.stackBase, Config.stackCapacity] at htop
    simp only [State.jump_sp, State.setSp_sp]
    bv_omega
  · exact (s.sameBut_setMem (by simp) _).trans
      ((State.sameBut_setSp (by simp) _ _).trans (State.sameBut_jump (by simp) _ _))

end Sys2Proof.Machine

namespace Sys2Proof.Machine

/-! ### One register written, then the next word (spec/41_alu.md R140 to R142) -/

theorem State.sameBut_setReg {changed : List Part} (hregs : .regs ∈ changed) (s : State) (x : RegIx) (b : Byte) :
    SameBut changed s (s.setReg x b) := by
  intro p hp
  cases p <;> simp_all [Part.same]

theorem State.sameBut_next {changed : List Part} (hpc : .pc ∈ changed) (s : State) : SameBut changed s s.next :=
  s.sameBut_jump hpc (s.pc + 2#16)

theorem State.regsBut_setReg (s : State) (x : RegIx) (b : Byte) : RegsBut [x] s (s.setReg x b) :=
  fun r hr => s.reg_setReg_other x r b (List.ne_of_not_mem_cons hr)

/-- The frame shared by the instructions whose whole effect is one ordinary register write. -/
theorem State.setReg_next_frame (s : State) (x : RegIx) (b : Byte) :
    RegsBut [x] s (s.setReg x b).next ∧ (s.setReg x b).next.pc = s.pc + 2#16 ∧
      SameBut [.regs, .pc] s (s.setReg x b).next :=
  ⟨s.regsBut_setReg x b, rfl, (s.sameBut_setReg (by simp) x b).trans (State.sameBut_next (by simp) _)⟩

/-- Settles O30: both loads are one register write, of the immediate or of `Vy`. -/
theorem loadsIntoARegister : Obligations.LoadsIntoARegister := by
  intro s x y nn
  exact ⟨⟨(s.setReg x nn).next, rfl, s.reg_setReg_same x nn, s.setReg_next_frame x nn⟩,
    ⟨(s.setReg x (s.reg y)).next, rfl, s.reg_setReg_same x (s.reg y), s.setReg_next_frame x (s.reg y)⟩⟩

/-- Settles O31: the one register write is of the 8-bit sum, which wraps modulo 256. -/
theorem addImmediateWraps : Obligations.AddImmediateWraps := by
  intro s x nn
  refine ⟨(s.setReg x (s.reg x + nn)).next, rfl, ?_, s.setReg_next_frame x (s.reg x + nn)⟩
  rw [State.next_reg, State.reg_setReg_same, BitVec.toNat_add]

end Sys2Proof.Machine

namespace Sys2Proof.Machine

/-! ### The address register written, then the next word (spec/42_index_memory.md R170) -/

theorem State.sameBut_setI {changed : List Part} (hindex : .index ∈ changed) (s : State) (a : Config.IndexWord) :
    SameBut changed s (s.setI a) := by
  intro p hp
  cases p <;> simp_all [Part.same]

/-- The frame shared by the instructions whose whole effect is one write of `I`. -/
theorem State.sameBut_setI_next (s : State) (a : Config.IndexWord) : SameBut [.index, .pc] s (s.setI a).next :=
  (s.sameBut_setI (by simp) a).trans (State.sameBut_next (by simp) _)

/-- Settles O37: LD I is one write of `I`, of the address zero-extended. -/
theorem loadIndex : Obligations.LoadIndex := by
  intro s nnn
  exact ⟨(s.setI (indexOfImm nnn)).next, rfl, indexOfImm_toNat nnn, rfl, s.sameBut_setI_next _⟩

end Sys2Proof.Machine

namespace Sys2Proof.Machine

/-! ### The framebuffer written, then the next word (spec/43_display.md R190) -/

@[simp] theorem clearCells_getElem (c : Fin 2048) : clearCells[c] = false :=
  Vector.getElem_replicate c.isLt

theorem State.sameBut_setFb {changed : List Part} (hfb : .framebuffer ∈ changed) (s : State) (fb : Vector Bool 2048) :
    SameBut changed s (s.setFb fb) := by
  intro p hp
  cases p <;> simp_all [Part.same]

/-- Settles O45: CLS is one write of the framebuffer, of the clear screen. -/
theorem clearScreenUnsetsEveryCell : Obligations.ClearScreenUnsetsEveryCell := by
  intro s
  exact ⟨(s.setFb clearCells).next, rfl, clearCells_getElem, rfl,
    (s.sameBut_setFb (by simp) clearCells).trans (State.sameBut_next (by simp) _)⟩

end Sys2Proof.Machine

namespace Sys2Proof.Machine

/-! ### A timer read into a register, or written, then the next word (spec/44_keys_timers.md R202, R204, R205) -/

/-- Settles O50: LD Vx, DT is one register write, of the timer's 8-bit view, which in its range is the floor. -/
theorem delayTimerReadIsTheFloor : Obligations.DelayTimerReadIsTheFloor := by
  intro s x hdt
  refine ⟨(s.setReg x (timerView s.dt)).next, rfl, ?_, s.setReg_next_frame x (timerView s.dt)⟩
  rw [State.next_reg, State.reg_setReg_same]
  exact timerView_toNat s.dt hdt

theorem timerLoad_eq_natCast (b : Byte) : timerLoad b = (b.toNat : Rat) := rfl

theorem State.sameBut_setDT {changed : List Part} (hdelay : .delay ∈ changed) (s : State) (t : Config.TimerNumber) :
    SameBut changed s (s.setDT t) := by
  intro p hp
  cases p <;> simp_all [Part.same]

theorem State.sameBut_setST {changed : List Part} (hsound : .sound ∈ changed) (s : State) (t : Config.TimerNumber) :
    SameBut changed s (s.setST t) := by
  intro p hp
  cases p <;> simp_all [Part.same]

/-- Settles O51: each load is one write of its timer, of the register's integer. -/
theorem timerLoads : Obligations.TimerLoads := by
  intro s x
  exact ⟨⟨(s.setDT (timerLoad (s.reg x))).next, rfl, timerLoad_eq_natCast (s.reg x), rfl,
      (s.sameBut_setDT (by simp) _).trans (State.sameBut_next (by simp) _)⟩,
    ⟨(s.setST (timerLoad (s.reg x))).next, rfl, timerLoad_eq_natCast (s.reg x), rfl,
      (s.sameBut_setST (by simp) _).trans (State.sameBut_next (by simp) _)⟩⟩

end Sys2Proof.Machine

namespace Sys2Proof.Machine

/-! ### What the host does to the Bus between ticks (spec/60_exceptions.md R239, R240, R250) -/

theorem State.sameBut_setKeys {changed : List Part} (hkeys : .keys ∈ changed) (s : State) (key : Vector Bool 16) :
    SameBut changed s (s.setKeys key) := by
  intro p hp
  cases p <;> simp_all [Part.same]

@[simp] theorem noKeys_getElem (k : Fin 16) : noKeys[k] = false :=
  Vector.getElem_replicate k.isLt

/-- Driving a line in its domain writes that one element of the key latch. -/
theorem State.driveKey_fin (s : State) (k : Fin 16) (level : Bool) :
    s.driveKey k.val level = .next (s.setKeys (s.key.set k.val level k.isLt)) :=
  dif_pos k.isLt

/-- Driving one key line, to either level: the frame that `set_key` and `clear_key` share. -/
theorem State.driveKey_drivesOneLine (s : State) (k : Fin 16) (level : Bool) :
    ∃ t, s.driveKey k.val level = .next t ∧ t.key[k] = level ∧ (∀ j : Fin 16, j ≠ k → t.key[j] = s.key[j]) ∧
      SameBut [.keys] s t := by
  refine ⟨_, s.driveKey_fin k level, Vector.getElem_set_self k.isLt, fun j hj => ?_, s.sameBut_setKeys (by simp) _⟩
  have hne : k.val ≠ j.val := fun e => hj (Fin.ext e.symm)
  exact Vector.getElem_set_ne k.isLt j.isLt hne

/-- Settles O54: both host calls drive one line, to the two levels. -/
theorem hostDrivesKeyLines : Obligations.HostDrivesKeyLines :=
  fun s k => ⟨s.driveKey_drivesOneLine k true, s.driveKey_drivesOneLine k false⟩

/-- The lone Bus reset is four writes, so its frame is their frames composed. -/
theorem State.sameBut_busReset (s : State) : SameBut [.framebuffer, .delay, .sound, .keys] s s.busReset :=
  (((s.sameBut_setFb (by simp) clearCells).trans (State.sameBut_setKeys (by simp) _ noKeys)).trans
    (State.sameBut_setDT (by simp) _ 0)).trans (State.sameBut_setST (by simp) _ 0)

/-- Settles O56: every cell reads from the clear screen, every key from the latch with no key set, and the latch of faults is in
the frame. -/
theorem busResetClearsTheBusAlone : Obligations.BusResetClearsTheBusAlone :=
  fun s => ⟨s.busReset, rfl, clearCells_getElem, rfl, rfl, noKeys_getElem, s.sameBut_busReset⟩

end Sys2Proof.Machine

namespace Sys2Proof.Machine

/-! ### A tick's fault is taken alone (spec/60_exceptions.md R223) -/

@[simp] theorem State.skipIf_fault (s : State) (c : Bool) : (s.skipIf c).fault = s.fault := by
  cases c <;> rfl

/-- All that an instruction can do to the fault latch: leave it as it is, or latch a fault over the state from before the
instruction. -/
theorem exec_keepsLatch_or_takesFault (i : Instr) (s : State) :
    ∃ t, exec i s = .next t ∧ (t.fault = s.fault ∨ ∃ f, t = s.takeFault f) := by
  cases i with
  | cls | jp | ldImm | addImm | ldReg | orReg | andReg | xorReg | addReg | sub | shr | subn | shl | ldI | jpV0 | rnd | ldVxDT
  | ldDT | ldST | addI | ldF => exact ⟨_, rfl, .inl rfl⟩
  | seImm | sneImm | seReg | sneReg => exact ⟨_, rfl, .inl (s.skipIf_fault _)⟩
  | ret =>
    rcases execRet_cases s with ⟨e, -⟩ | ⟨e, -⟩ | ⟨f, e, -⟩
    · exact ⟨_, e, .inl rfl⟩
    · exact ⟨_, e, .inr ⟨_, rfl⟩⟩
    · exact ⟨_, e, .inr ⟨f, rfl⟩⟩
  | call nnn =>
    rcases execCall_cases nnn s with ⟨e, -⟩ | ⟨e, -⟩ | ⟨f, e, -⟩
    · exact ⟨_, e, .inl rfl⟩
    · exact ⟨_, e, .inr ⟨_, rfl⟩⟩
    · exact ⟨_, e, .inr ⟨f, rfl⟩⟩
  | ldB x =>
    rcases execLdB_cases x s with ⟨e, -⟩ | ⟨e, -⟩ | ⟨e, -⟩
    · exact ⟨_, e, .inl rfl⟩
    · exact ⟨_, e, .inr ⟨_, rfl⟩⟩
    · exact ⟨_, e, .inr ⟨_, rfl⟩⟩
  | storeRegs x =>
    rcases execStoreRegs_cases x s with ⟨e, -⟩ | ⟨e, -⟩ | ⟨e, -⟩
    · exact ⟨_, e, .inl rfl⟩
    · exact ⟨_, e, .inr ⟨_, rfl⟩⟩
    · exact ⟨_, e, .inr ⟨_, rfl⟩⟩
  | loadRegs x =>
    rcases execLoadRegs_cases x s with ⟨e, -⟩ | ⟨e, -⟩
    · exact ⟨_, e, .inl rfl⟩
    · exact ⟨_, e, .inr ⟨_, rfl⟩⟩
  | drw x y n =>
    rcases execDrw_cases x y n s with ⟨e, -⟩ | ⟨e, -⟩
    · exact ⟨_, e, .inl rfl⟩
    · exact ⟨_, e, .inr ⟨_, rfl⟩⟩
  | skp x =>
    rcases execSkp_cases x s with ⟨e, -⟩ | ⟨e, -⟩
    · exact ⟨_, e, .inl (s.skipIf_fault _)⟩
    · exact ⟨_, e, .inr ⟨_, rfl⟩⟩
  | sknp x =>
    rcases execSknp_cases x s with ⟨e, -⟩ | ⟨e, -⟩
    · exact ⟨_, e, .inl (s.skipIf_fault _)⟩
    · exact ⟨_, e, .inr ⟨_, rfl⟩⟩
  | ldVxK x =>
    rcases execLdVxK_cases x s with ⟨k, e, -⟩ | ⟨e, -⟩
    · exact ⟨_, e, .inl rfl⟩
    · exact ⟨_, e, .inl rfl⟩

/-- A tick of a core with no fault latched leaves the latch clear, or latches a fault over the state from before the tick: fetch,
decode and execution all raise by fault entry. -/
theorem step_keepsLatch_or_takesFault {s t : State} (hs : s.fault = none) (hstep : step s = .next t) :
    t.fault = none ∨ ∃ f, t = s.takeFault f := by
  rcases step_cases hstep with ⟨⟨f, hf⟩, -⟩ | ⟨-, f, -, ht⟩ | ⟨-, i, -, ht⟩
  · rw [hs] at hf
    cases hf
  · cases ht
    exact .inr ⟨f, rfl⟩
  · obtain ⟨u, hu, hlatch⟩ := exec_keepsLatch_or_takesFault i s
    cases ht.trans hu
    rwa [hs] at hlatch

/-- Settles O12: a tick that latches a fault is fault entry from the state before it, which changes the latch alone. -/
theorem faultingTickChangesOnlyTheLatch : Obligations.FaultingTickChangesOnlyTheLatch := by
  intro s t hs hstep hfault
  obtain ⟨f, rfl⟩ := (step_keepsLatch_or_takesFault hs hstep).resolve_left hfault
  exact (takeFault_raises s f).2

end Sys2Proof.Machine

namespace Sys2Proof

/-! ### Decoding inverts encoding (spec/30_encoding.md sections 1 and 2) -/

/-- The decoder finds the row an instruction was encoded from, by its fields (R95, R96). -/
theorem decodeWord_encode (i : Instr) : decodeWord (encode i) = .ok i := by
  cases i with
  | cls | ret => rfl
  | jp | call | ldI | jpV0 | seImm | sneImm | ldImm | addImm | rnd | drw => simp [encode, decodeWord]
  | seReg => simp [encode, decodeWord, decodeOp5]
  | sneReg => simp [encode, decodeWord, decodeOp9]
  | ldReg | orReg | andReg | xorReg | addReg | sub | shr | subn | shl => simp [encode, decodeWord, decodeOp8]
  | skp | sknp => simp [encode, decodeWord, decodeOpE]
  | ldVxDT | ldVxK | ldDT | ldST | addI | ldF | ldB | storeRegs | loadRegs => simp [encode, decodeWord, decodeOpF]

/-- Two bytes decode as their word does, and the bytes after them are left (R62, R90). -/
theorem decodeBytes_eq_ok_iff {hi lo : Byte} {rest rest' : List Byte} {i : Instr} :
    decodeBytes (hi :: lo :: rest) = .ok (i, rest') ↔ decodeWord (wordOfBytes hi lo) = .ok i ∧ rest = rest' := by
  cases hd : decodeWord (wordOfBytes hi lo) <;> simp [decodeBytes, hd]

/-- Settles O1: the two bytes of an instruction join to its word, whose fields are the instruction's own. -/
theorem decodeOfEncodeIsTheInstruction : Obligations.DecodeOfEncodeIsTheInstruction := by
  intro i rest
  refine ⟨decodeWord_encode i, decodeBytes_eq_ok_iff.2 ⟨?_, rfl⟩⟩
  rw [wordOfBytes_bytes, decodeWord_encode]

/-! ### Encoding inverts decoding: the fields an arm of the decoder tests are those the encoder writes -/

theorem encode_of_decodeOp0 {w : Word} {i : Instr} (h : decodeOp0 w = .ok i) : encode i = w := by
  unfold decodeOp0 at h
  split at h
  · next hw => cases h; exact hw.symm
  · split at h
    · next hw => cases h; exact hw.symm
    · cases h

theorem encode_of_decodeOp5 {w : Word} {i : Instr} (hop : fieldOp w = 0x5#4) (h : decodeOp5 w = .ok i) : encode i = w := by
  unfold decodeOp5 at h
  split at h
  · next hn => cases h; rw [encode, ← hop, ← hn, packXYN_fields]
  · cases h

theorem encode_of_decodeOp9 {w : Word} {i : Instr} (hop : fieldOp w = 0x9#4) (h : decodeOp9 w = .ok i) : encode i = w := by
  unfold decodeOp9 at h
  split at h
  · next hn => cases h; rw [encode, ← hop, ← hn, packXYN_fields]
  · cases h

theorem encode_of_decodeOp8 {w : Word} {i : Instr} (hop : fieldOp w = 0x8#4) (h : decodeOp8 w = .ok i) : encode i = w := by
  unfold decodeOp8 at h
  split at h
  case h_10 => cases h
  all_goals
    next hn => cases h; rw [encode, ← hop, ← hn, packXYN_fields]

theorem encode_of_decodeOpE {w : Word} {i : Instr} (hop : fieldOp w = 0xE#4) (h : decodeOpE w = .ok i) : encode i = w := by
  unfold decodeOpE at h
  split at h
  case h_3 => cases h
  all_goals
    next hnn => cases h; rw [encode, ← hop, ← hnn, packXNN_fields]

theorem encode_of_decodeOpF {w : Word} {i : Instr} (hop : fieldOp w = 0xF#4) (h : decodeOpF w = .ok i) : encode i = w := by
  unfold decodeOpF at h
  split at h
  case h_10 => cases h
  all_goals
    next hnn => cases h; rw [encode, ← hop, ← hnn, packXNN_fields]

/-- Settles O2: by the value of `op`, the format of the word the decoder reads is the one the encoder packs. -/
theorem encodeOfDecodeIsTheWord : Obligations.EncodeOfDecodeIsTheWord := by
  intro w i h
  unfold decodeWord at h
  split at h
  case h_1 => exact encode_of_decodeOp0 h
  case h_6 hop => exact encode_of_decodeOp5 hop h
  case h_9 hop => exact encode_of_decodeOp8 hop h
  case h_10 hop => exact encode_of_decodeOp9 hop h
  case h_15 hop => exact encode_of_decodeOpE hop h
  case h_16 hop => exact encode_of_decodeOpF hop h
  case h_17 => cases h
  -- `nnn`
  case h_2 hop | h_3 hop | h_11 hop | h_12 hop => cases h; rw [encode, ← hop, packNNN_fields]
  -- `x` and `nn`
  case h_4 hop | h_5 hop | h_7 hop | h_8 hop | h_13 hop => cases h; rw [encode, ← hop, packXNN_fields]
  -- `x`, `y` and `n`
  case h_14 hop => cases h; rw [encode, ← hop, packXYN_fields]

/-! ### The decoder by fields accepts what the opcode map selects by masks (R95, R96) -/

/-- Every instruction's word selects a row of the opcode map (R96). -/
theorem wellFormedWord_encode (i : Instr) : wellFormedWord (encode i) = true := by
  open Laws.LegalEncoding in
  cases i with
  | cls => exact cls
  | ret => exact ret
  | jp nnn => exact jp nnn
  | call nnn => exact call nnn
  | seImm x nn => exact seImm x nn
  | sneImm x nn => exact sneImm x nn
  | seReg x y => exact seReg x y
  | ldImm x nn => exact ldImm x nn
  | addImm x nn => exact addImm x nn
  | ldReg x y => exact ldReg x y
  | orReg x y => exact orReg x y
  | andReg x y => exact andReg x y
  | xorReg x y => exact xorReg x y
  | addReg x y => exact addReg x y
  | sub x y => exact sub x y
  | shr x y => exact shr x y
  | subn x y => exact subn x y
  | shl x y => exact shl x y
  | sneReg x y => exact sneReg x y
  | ldI nnn => exact ldI nnn
  | jpV0 nnn => exact jpV0 nnn
  | rnd x nn => exact rnd x nn
  | drw x y n => exact drw x y n
  | skp x => exact skp x
  | sknp x => exact sknp x
  | ldVxDT x => exact ldVxDT x
  | ldVxK x => exact ldVxK x
  | ldDT x => exact ldDT x
  | ldST x => exact ldST x
  | addI x => exact addI x
  | ldF x => exact ldF x
  | ldB x => exact ldB x
  | storeRegs x => exact storeRegs x
  | loadRegs x => exact loadRegs x

end Sys2Proof

namespace Sys2Proof

/-! ### The unassigned words (spec/30_encoding.md section 3, R98) -/

/-- The unassigned words as the spec lists them: no row of the map has these fields (R98; the strict reading of `5xyn` and
`9xyn` is D19). -/
abbrev Unassigned (w : Word) : Prop :=
  ((fieldOp w = 0x5#4 ∨ fieldOp w = 0x9#4) ∧ fieldN w ≠ 0x0#4) ∨
  (fieldOp w = 0x8#4 ∧ fieldN w ∈ [0x8#4, 0x9#4, 0xA#4, 0xB#4, 0xC#4, 0xD#4, 0xF#4]) ∨
  (fieldOp w = 0xE#4 ∧ fieldNN w ∉ [0x9E#8, 0xA1#8]) ∨
  (fieldOp w = 0xF#4 ∧ fieldNN w ∉ [0x07#8, 0x0A#8, 0x15#8, 0x18#8, 0x1E#8, 0x29#8, 0x33#8, 0x55#8, 0x65#8])

theorem decodeOp0_ne_unknown (w : Word) : decodeOp0 w ≠ .error (.unknown w) := fun h => by
  simpa using (decodeOp0_error h).1

theorem decodeOp5_eq_unknown_iff (w : Word) : decodeOp5 w = .error (.unknown w) ↔ fieldN w ≠ 0x0#4 := by
  unfold decodeOp5
  split <;> simp_all

theorem decodeOp9_eq_unknown_iff (w : Word) : decodeOp9 w = .error (.unknown w) ↔ fieldN w ≠ 0x0#4 := by
  unfold decodeOp9
  split <;> simp_all

/-- The seven values of `n` that the spec lists are those the nine arms leave. -/
theorem decodeOp8_eq_unknown_iff (w : Word) :
    decodeOp8 w = .error (.unknown w) ↔ fieldN w ∈ [0x8#4, 0x9#4, 0xA#4, 0xB#4, 0xC#4, 0xD#4, 0xF#4] := by
  have hn : fieldN w ∈ [0x0#4, 0x1#4, 0x2#4, 0x3#4, 0x4#4, 0x5#4, 0x6#4, 0x7#4, 0xE#4] ∨
      fieldN w ∈ [0x8#4, 0x9#4, 0xA#4, 0xB#4, 0xC#4, 0xD#4, 0xF#4] := by
    generalize fieldN w = n
    revert n
    decide
  unfold decodeOp8
  split
  case h_10 => simp_all
  all_goals next hn => simp [hn]

theorem decodeOpE_eq_unknown_iff (w : Word) :
    decodeOpE w = .error (.unknown w) ↔ fieldNN w ∉ [0x9E#8, 0xA1#8] := by
  unfold decodeOpE
  split <;> simp_all

theorem decodeOpF_eq_unknown_iff (w : Word) :
    decodeOpF w = .error (.unknown w) ↔
      fieldNN w ∉ [0x07#8, 0x0A#8, 0x15#8, 0x18#8, 0x1E#8, 0x29#8, 0x33#8, 0x55#8, 0x65#8] := by
  unfold decodeOpF
  split <;> simp_all

/-- No value of `op` is left for the decoder's last arm (R95). -/
theorem fieldOp_mem_arms (w : Word) : fieldOp w ∈ [0x0#4, 0x1#4, 0x2#4, 0x3#4, 0x4#4, 0x5#4, 0x6#4, 0x7#4, 0x8#4, 0x9#4,
    0xA#4, 0xB#4, 0xC#4, 0xD#4, 0xE#4, 0xF#4] := by
  generalize fieldOp w = op
  revert op
  decide

/-- The decoder calls exactly the unassigned words unknown (R98). -/
theorem decodeWord_eq_unknown_iff (w : Word) : decodeWord w = .error (.unknown w) ↔ Unassigned w := by
  have harms := fieldOp_mem_arms w
  unfold decodeWord
  split
  case h_1 hop => simp [Unassigned, hop, decodeOp0_ne_unknown]
  case h_6 hop => simp [Unassigned, hop, decodeOp5_eq_unknown_iff]
  case h_9 hop => simp [Unassigned, hop, decodeOp8_eq_unknown_iff]
  case h_10 hop => simp [Unassigned, hop, decodeOp9_eq_unknown_iff]
  case h_15 hop => simp [Unassigned, hop, decodeOpE_eq_unknown_iff]
  case h_16 hop => simp [Unassigned, hop, decodeOpF_eq_unknown_iff]
  case h_17 => simp_all
  all_goals next hop => simp [Unassigned, hop]

/-- A word is legal when it is neither a native call nor unassigned (R97, R98). -/
theorem decodes_of_assigned {w : Word} (hnative : fieldOp w = 0x0#4 → w = 0x00E0#16 ∨ w = 0x00EE#16)
    (hassigned : ¬ Unassigned w) : ∃ i, decodeWord w = .ok i := by
  cases h : decodeWord w with
  | ok i => exact ⟨i, rfl⟩
  | error e =>
    rcases decodeWord_error_cases h with ⟨-, hop, hcls, hret⟩ | ⟨rfl, -⟩
    · exact absurd (hnative hop) (not_or.2 ⟨hcls, hret⟩)
    · exact absurd ((decodeWord_eq_unknown_iff w).1 h) hassigned

/-- The map has four masks, and the fields that a row's mask fixes already tell that its words are assigned (R96). -/
theorem opcodeRows_masks : ∀ r ∈ opcodeRows,
    (r.mask = 0xFFFF#16 ∧ (r.pattern = 0x00E0#16 ∨ r.pattern = 0x00EE#16)) ∨
    (r.mask = 0xF000#16 ∧ fieldOp r.pattern ∉ [0x0#4, 0x5#4, 0x8#4, 0x9#4, 0xE#4, 0xF#4]) ∨
    (r.mask = 0xF00F#16 ∧ fieldOp r.pattern ∉ [0x0#4, 0xE#4, 0xF#4] ∧ ¬ Unassigned r.pattern) ∨
    (r.mask = 0xF0FF#16 ∧ (fieldOp r.pattern = 0xE#4 ∨ fieldOp r.pattern = 0xF#4) ∧ ¬ Unassigned r.pattern) := by
  decide

/-- A word that selects a row of the map is legal: its mask fixes all the fields the decoder tests. -/
theorem decodes_of_selects {w : Word} {r : OpcodeRow} (hr : r ∈ opcodeRows) (hsel : w &&& r.mask = r.pattern) :
    ∃ i, decodeWord w = .ok i := by
  rcases opcodeRows_masks r hr with ⟨hmask, hp⟩ | ⟨hmask, hp⟩ | ⟨hmask, hp, hassigned⟩ | ⟨hmask, hp, hassigned⟩ <;>
    rw [hmask] at hsel
  · have hw : w = r.pattern := BitVec.and_allOnes.symm.trans hsel
    rw [hw]
    rcases hp with hp | hp <;> rw [hp]
    · exact ⟨.cls, rfl⟩
    · exact ⟨.ret, rfl⟩
  · have hop := fields_of_and_F000 hsel
    simp only [← hop, List.mem_cons, List.not_mem_nil, or_false, not_or] at hp
    exact decodes_of_assigned (by simp [hp]) (by simp [Unassigned, hp])
  · obtain ⟨hop, hn⟩ := fields_of_and_F00F hsel
    simp only [List.mem_cons, List.not_mem_nil, or_false, not_or] at hp
    exact decodes_of_assigned (by simp [hop, hp]) (by simpa [Unassigned, hop, hn, hp] using hassigned)
  · obtain ⟨hop, hnn⟩ := fields_of_and_F0FF hsel
    rcases hp with hp | hp <;>
      exact decodes_of_assigned (by simp [hop, hp]) (by simpa [Unassigned, hop, hnn, hp] using hassigned)

/-- Settles O3: a decoded word is the word of its instruction, which selects that instruction's row; and a row's mask fixes
every field the decoder tests. -/
theorem legalWordsSelectARowOfTheMap : Obligations.LegalWordsSelectARowOfTheMap := by
  intro w
  constructor
  · rintro ⟨i, hi⟩
    rw [← encodeOfDecodeIsTheWord w i hi]
    exact wellFormedWord_encode i
  · intro hw
    obtain ⟨r, hr, hsel⟩ := List.any_eq_true.1 hw
    exact decodes_of_selects hr (by simpa [OpcodeRow.selects] using hsel)

/-- No word selects two disjoint rows: it would have the bits of both patterns where both masks look (R96). -/
theorem OpcodeRow.not_selects_of_disjoint {r q : OpcodeRow} {w : Word} (hdisjoint : r.disjoint q = true)
    (hr : r.selects w = true) : q.selects w = false := by
  rw [Bool.eq_false_iff]
  intro hq
  simp only [OpcodeRow.disjoint, OpcodeRow.selects, bne_iff_ne, ne_eq, beq_iff_eq] at hdisjoint hr hq
  apply hdisjoint
  calc r.pattern &&& q.mask = w &&& r.mask &&& q.mask := by rw [hr]
    _ = w &&& q.mask &&& r.mask := by rw [BitVec.and_assoc, BitVec.and_comm r.mask, ← BitVec.and_assoc]
    _ = q.pattern &&& r.mask := by rw [hq]

/-- Settles O4: any two rows differ in a bit both of their masks fix. -/
theorem opcodeRowsAreDisjoint : Obligations.OpcodeRowsAreDisjoint := by
  have hdisjoint : opcodeRows.Pairwise fun r q => r.disjoint q = true := by decide
  exact ⟨rfl, hdisjoint.imp fun h _ => OpcodeRow.not_selects_of_disjoint h⟩

/-- Settles O7: each word is evaluated. -/
theorem exampleWordsDecode : Obligations.ExampleWordsDecode :=
  ⟨rfl, rfl, rfl, rfl, rfl, rfl, rfl, rfl, rfl, rfl, rfl, rfl⟩

end Sys2Proof

namespace Sys2Proof.Machine

/-- Settles O6: the decoder's arms leave exactly the fields the spec lists; the fault reaches the latch through `fetchInstr`. -/
theorem unassignedWordsRaise : Obligations.UnassignedWordsRaise :=
  ⟨decodeWord_eq_unknown_iff,
    fun _ _ hf hw he => step_raises_of_fetchInstr_error hf (State.fetchInstr_of_decodeError hw he)⟩

end Sys2Proof.Machine

namespace Sys2Proof.Machine

/-! ### The tick (spec/30_encoding.md section 4) -/

/-- Settles O10: the latch is tested first. -/
theorem faultedCoreTicksIdle : Obligations.FaultedCoreTicksIdle := by
  intro s f hf
  rcases step_cases (s := s) rfl with ⟨-, h⟩ | ⟨hnone, -⟩ | ⟨hnone, -⟩
  · exact h
  · simp [hf] at hnone
  · simp [hf] at hnone

/-- With no fault latched, a tick runs the instruction it fetches (R101). -/
theorem step_eq_exec {s : State} {i : Instr} (hf : s.fault = none) (hi : s.fetchInstr = .ok i) : step s = exec i s := by
  rcases step_cases (s := s) rfl with ⟨⟨g, hg⟩, -⟩ | ⟨-, g, hg, -⟩ | ⟨-, j, hj, h⟩
  · simp [hf] at hg
  · simp [hi] at hg
  · obtain rfl : i = j := by simpa [hi] using hj
    exact h

/-- A word that decodes is an instruction fetched (R101). -/
theorem State.fetchInstr_of_decodeWord {s : State} {w : Word} {i : Instr} (hw : s.fetchWord = .ok w)
    (hi : decodeWord w = .ok i) : s.fetchInstr = .ok i := by
  rw [State.fetchInstr_of_word hw, hi]

/-- Settles O9: below `0xFFF` the fetch is of the two bytes at `pc`, and bytes decode as the word they join to. -/
theorem stepRunsTheDecodedInstruction : Obligations.StepRunsTheDecodedInstruction := by
  intro s i rest hf hpc hdecode
  have hfetch := State.fetchWord_of_inBounds (s := s) (by omega)
  exact step_eq_exec hf (State.fetchInstr_of_decodeWord hfetch (decodeBytes_eq_ok_iff.1 hdecode).1)

/-- Settles O20: the tick runs the jump, which writes to `pc` what `pc` holds. -/
theorem selfJumpIsAFixedPoint : Obligations.SelfJumpIsAFixedPoint := by
  rintro s ⟨hf, nnn, hi, htarget⟩
  have hself : s.jump (addrOfImm nnn) = s := by rw [htarget]; rfl
  calc step s = .next (s.jump (addrOfImm nnn)) := step_eq_exec hf hi
    _ = .next s := by rw [hself]

/-- Settles O11: a tick idles, latches a fault of fetch or decode, or runs an instruction, and every instruction answers a next
state. -/
theorem everyTickAnswersANextState : Obligations.EveryTickAnswersANextState := by
  intro s
  rcases step_cases (s := s) rfl with ⟨-, h⟩ | ⟨-, f, -, h⟩ | ⟨-, i, -, h⟩
  · exact ⟨s, h⟩
  · exact ⟨s.takeFault f, h⟩
  · obtain ⟨t, ht, -⟩ := exec_keepsLatch_or_takesFault i s
    exact ⟨t, h.trans ht⟩

/-! ### Every instruction's frame: the parts it writes, and the faults it raises -/

/-- The parts of the state an instruction that raises no fault can write (spec/10_state.md; R141 to R205). -/
def writes : Instr → List Part
  | .cls => [.framebuffer, .pc]
  | .ret => [.sp, .pc]
  | .call _ => [.memory, .sp, .pc]
  | .jp _ | .jpV0 _ | .seImm _ _ | .sneImm _ _ | .seReg _ _ | .sneReg _ _ | .skp _ | .sknp _ => [.pc]
  | .ldImm _ _ | .addImm _ _ | .ldReg _ _ | .orReg _ _ | .andReg _ _ | .xorReg _ _ => [.regs, .pc]
  | .addReg _ _ | .sub _ _ | .shr _ _ | .subn _ _ | .shl _ _ => [.regs, .pc]
  | .ldVxDT _ | .ldVxK _ | .loadRegs _ => [.regs, .pc]
  | .rnd _ _ => [.regs, .pc, .draws]
  | .drw _ _ _ => [.framebuffer, .regs, .pc]
  | .ldI _ | .addI _ | .ldF _ => [.index, .pc]
  | .ldDT _ => [.delay, .pc]
  | .ldST _ => [.sound, .pc]
  | .ldB _ | .storeRegs _ => [.memory, .pc]

/-- The field that holds the part is the same in both states. `Part.same` compares what memory, registers, cells and keys read
as; the invariant is about the memory list itself. -/
def Part.Kept : Part → State → State → Prop
  | .regs, s, t => t.v = s.v
  | .index, s, t => t.i = s.i
  | .pc, s, t => t.pc = s.pc
  | .sp, s, t => t.sp = s.sp
  | .memory, s, t => t.mem = s.mem
  | .framebuffer, s, t => t.fb = s.fb
  | .keys, s, t => t.key = s.key
  | .delay, s, t => t.dt = s.dt
  | .sound, s, t => t.st = s.st
  | .latch, s, t => t.fault = s.fault
  | .draws, s, t => t.draws = s.draws

/-- A field that is the same reads the same. -/
theorem Part.Kept.same {p : Part} {s t : State} (h : p.Kept s t) : p.same s t := by
  cases p <;> simp_all [Part.Kept, Part.same, State.reg]

/-- Fault entry keeps every part but the latch (R223). -/
theorem Part.kept_takeFault {p : Part} (hp : p ≠ .latch) (s : State) (f : Fault) : p.Kept s (s.takeFault f) := by
  cases p <;> simp_all [Part.Kept]

/-- A skip keeps every part but `pc`. -/
theorem State.kept_skipIf {p : Part} (hp : p ≠ .pc) (s : State) (c : Bool) : p.Kept s (s.skipIf c) := by
  rw [State.skipIf_eq_jump]
  cases p <;> simp_all [Part.Kept]

/-- Every field but those of the parts named is the same in both states. -/
def KeptBut (written : List Part) (s t : State) : Prop := ∀ p, p ∉ written → p.Kept s t

/-- All that an instruction can do, part by part: keep every part that it does not write, or take a fault, which for `sp` in its
range is one of its own (R221, R223). -/
theorem exec_keptBut_or_takesFault {i : Instr} {s t : State} (h : exec i s = .next t) :
    KeptBut (writes i) s t ∨ ∃ f, t = s.takeFault f ∧ (s.SpOk → mayRaise i f = true) := by
  cases i with
  | cls | jp | ldImm | addImm | ldReg | orReg | andReg | xorReg | ldI | jpV0 | rnd | ldVxDT | ldDT | ldST | addI | ldF =>
    cases h
    exact .inl fun p hp => by cases p <;> simp_all [writes, Part.Kept]
  | addReg | sub | shr | subn | shl =>
    cases h
    exact .inl fun p hp => by cases p <;> simp_all [writes, Part.Kept, State.setResultAndFlag]
  | seImm | sneImm | seReg | sneReg =>
    cases h
    exact .inl fun p hp => State.kept_skipIf (by simpa [writes] using hp) s _
  | skp x =>
    rcases execSkp_cases x s with ⟨e, -⟩ | ⟨e, -⟩ <;> cases h.symm.trans e
    · exact .inl fun p hp => State.kept_skipIf (by simpa [writes] using hp) s _
    · exact .inr ⟨_, rfl, fun _ => rfl⟩
  | sknp x =>
    rcases execSknp_cases x s with ⟨e, -⟩ | ⟨e, -⟩ <;> cases h.symm.trans e
    · exact .inl fun p hp => State.kept_skipIf (by simpa [writes] using hp) s _
    · exact .inr ⟨_, rfl, fun _ => rfl⟩
  | ret =>
    rcases execRet_cases s with ⟨e, -⟩ | ⟨e, -⟩ | ⟨f, e, hsp⟩ <;> cases h.symm.trans e
    · exact .inl fun p hp => by cases p <;> simp_all [writes, Part.Kept]
    · exact .inr ⟨_, rfl, fun _ => rfl⟩
    · exact .inr ⟨f, rfl, fun h => absurd h hsp⟩
  | call nnn =>
    rcases execCall_cases nnn s with ⟨e, -⟩ | ⟨e, -⟩ | ⟨f, e, hsp⟩ <;> cases h.symm.trans e
    · exact .inl fun p hp => by cases p <;> simp_all [writes, Part.Kept]
    · exact .inr ⟨_, rfl, fun _ => rfl⟩
    · exact .inr ⟨f, rfl, fun h => absurd h hsp⟩
  | ldB x =>
    rcases execLdB_cases x s with ⟨e, -⟩ | ⟨e, -⟩ | ⟨e, -⟩ <;> cases h.symm.trans e
    · exact .inl fun p hp => by cases p <;> simp_all [writes, Part.Kept]
    all_goals exact .inr ⟨_, rfl, fun _ => rfl⟩
  | storeRegs x =>
    rcases execStoreRegs_cases x s with ⟨e, -⟩ | ⟨e, -⟩ | ⟨e, -⟩ <;> cases h.symm.trans e
    · exact .inl fun p hp => by cases p <;> simp_all [writes, Part.Kept]
    all_goals exact .inr ⟨_, rfl, fun _ => rfl⟩
  | loadRegs x =>
    rcases execLoadRegs_cases x s with ⟨e, -⟩ | ⟨e, -⟩ <;> cases h.symm.trans e
    · exact .inl fun p hp => by cases p <;> simp_all [writes, Part.Kept]
    · exact .inr ⟨_, rfl, fun _ => rfl⟩
  | drw x y n =>
    rcases execDrw_cases x y n s with ⟨e, -⟩ | ⟨e, -⟩ <;> cases h.symm.trans e
    · exact .inl fun p hp => by cases p <;> simp_all [writes, Part.Kept]
    · exact .inr ⟨_, rfl, fun _ => rfl⟩
  | ldVxK x =>
    rcases execLdVxK_cases x s with ⟨k, e, -⟩ | ⟨e, -⟩ <;> cases h.symm.trans e
    all_goals exact .inl fun p hp => by cases p <;> simp_all [writes, Part.Kept]

end Sys2Proof.Machine

namespace Sys2Proof.Machine

/-- No instruction writes the latch: a fault is taken over the state from before it (R223). -/
theorem latch_not_mem_writes (i : Instr) : .latch ∉ writes i := by
  cases i <;> simp [writes]

/-- No instruction writes the key latch: the host drives the lines (R29). -/
theorem keys_not_mem_writes (i : Instr) : .keys ∉ writes i := by
  cases i <;> simp [writes]

/-- A part that an instruction does not write is kept on every path, a fault's included. -/
theorem exec_kept {i : Instr} {s t : State} {p : Part} (h : exec i s = .next t) (hp : p ∉ writes i) (hlatch : p ≠ .latch) :
    p.Kept s t := by
  rcases exec_keptBut_or_takesFault h with hkept | ⟨f, rfl, -⟩
  · exact hkept p hp
  · exact Part.kept_takeFault hlatch s f

/-- Settles O13: no instruction writes the latch, so a fault is there because it was taken. -/
theorem instructionsRaiseOnlyTheirOwnFaults : Obligations.InstructionsRaiseOnlyTheirOwnFaults := by
  intro i s t f hsp hnone h hf
  rcases exec_keptBut_or_takesFault h with hkept | ⟨g, rfl, hown⟩
  · have hlatch : t.fault = s.fault := hkept .latch (latch_not_mem_writes i)
    simp [hlatch, hnone] at hf
  · obtain rfl : g = f := by simpa using hf
    exact hown hsp

/-- Settles O18: each clause names the instructions that write the part, and every other one keeps it. -/
theorem statePartsHaveOnlyTheirWriters : Obligations.StatePartsHaveOnlyTheirWriters := by
  intro i s t h
  refine ⟨fun hi => exec_kept (p := .index) h ?_ (by simp), fun hi => exec_kept (p := .sp) h ?_ (by simp),
    fun hi => (exec_kept (p := .memory) h ?_ (by simp)).same, fun hi => (exec_kept (p := .framebuffer) h ?_ (by simp)).same,
    exec_kept (p := .keys) h (keys_not_mem_writes i) (by simp), fun hi => exec_kept (p := .delay) h ?_ (by simp),
    fun hi => exec_kept (p := .sound) h ?_ (by simp), fun hi => exec_kept (p := .draws) h ?_ (by simp)⟩
  all_goals cases i <;> simp_all [writes]

/-! ### The registers' frame: `VF` (spec/10_state.md R22) -/

theorem flagByte_zero_or_one (c : Bool) : flagByte c = 0#8 ∨ flagByte c = 1#8 := by
  cases c
  · exact .inl rfl
  · exact .inr rfl

/-- After a result and a flag, `VF` is the flag, whatever the destination (R152). -/
theorem State.reg_flagReg_setResultAndFlag (s : State) (x : RegIx) (r : Byte) (c : Bool) :
    (s.setResultAndFlag x r c).reg flagReg = flagByte c :=
  State.reg_setReg_same _ _ _

/-- An instruction that is no flag writer and has another destination, or none, keeps `VF` (R22). -/
theorem exec_flagReg_kept {i : Instr} {s t : State} (h : exec i s = .next t) (hwriter : writesFlag i = false)
    (hdest : destinationIsFlag i = false) : t.reg flagReg = s.reg flagReg := by
  cases i with
  | addReg | sub | subn | shr | shl | drw => simp [writesFlag] at hwriter
  | ldImm x | addImm x | ldReg x | orReg x | andReg x | xorReg x | rnd x | ldVxDT x =>
    cases h
    exact s.reg_setReg_other x flagReg _ (Ne.symm (by simpa [destinationIsFlag] using hdest))
  | ldVxK x =>
    rcases execLdVxK_cases x s with ⟨k, e, -⟩ | ⟨e, -⟩ <;> cases h.symm.trans e
    · exact s.reg_setReg_other x flagReg _ (Ne.symm (by simpa [destinationIsFlag] using hdest))
    · rfl
  | loadRegs x =>
    rcases execLoadRegs_cases x s with ⟨e, -⟩ | ⟨e, -⟩ <;> cases h.symm.trans e
    · have hx : x ≠ flagReg := by simpa [destinationIsFlag] using hdest
      have habove : ¬ flagReg.toNat ≤ x.toNat := fun hle => by
        have := x.isLt
        exact hx (BitVec.eq_of_toNat_eq (by simp only [flagReg, BitVec.toNat_ofNat] at hle ⊢; omega))
      rw [State.next_reg, State.reg_loadedRegs, if_neg habove]
    · rfl
  | _ => exact (exec_kept (p := .regs) h (by simp [writes]) (by simp)).same flagReg

/-- A flag writer that takes no fault leaves a flag in `VF` (R22). -/
theorem exec_flagReg_flag {i : Instr} {s t : State} (h : exec i s = .next t) (hwriter : writesFlag i = true)
    (hsafe : t.fault = none) : ∃ c, t.reg flagReg = flagByte c := by
  cases i with
  | addReg | sub | subn | shr | shl =>
    cases h
    exact ⟨_, s.reg_flagReg_setResultAndFlag _ _ _⟩
  | drw x y n =>
    rcases execDrw_cases x y n s with ⟨e, -⟩ | ⟨e, -⟩ <;> cases h.symm.trans e
    · exact ⟨_, State.reg_setReg_same _ _ _⟩
    · simp at hsafe
  | _ => simp [writesFlag] at hwriter

/-- Settles O19: the flag writers write `VF` last, and of the others only an ordinary destination reaches it. -/
theorem flagRegisterHasOnlyItsWriters : Obligations.FlagRegisterHasOnlyItsWriters := by
  intro i s t h
  refine ⟨exec_flagReg_kept h, fun hwriter _ hsafe => ?_⟩
  obtain ⟨c, hc⟩ := exec_flagReg_flag h hwriter hsafe
  rw [hc]
  exact flagByte_zero_or_one c

/-! ### Where `pc` goes (spec/00_scope.md R10, spec/40_flow.md R128) -/

theorem State.skipIf_pc_cases (s : State) (c : Bool) : (s.skipIf c).pc = s.pc + 2#16 ∨ (s.skipIf c).pc = s.pc + 4#16 := by
  cases c
  · exact .inl rfl
  · exact .inr rfl

/-- Settles O22: `Halt` and a fault leave `pc`, `Next` and `Skip` move it by 2 and 4; the other four are excepted. -/
theorem pcMovesByTheFourOutcomes : Obligations.PcMovesByTheFourOutcomes := by
  intro i s t h hi
  cases i with
  | jp | call | jpV0 | ret => simp at hi
  | cls | ldImm | addImm | ldReg | orReg | andReg | xorReg | addReg | sub | shr | subn | shl | ldI | rnd | ldVxDT | ldDT | ldST
  | addI | ldF =>
    cases h
    exact .inr (.inl rfl)
  | seImm | sneImm | seReg | sneReg =>
    cases h
    exact .inr (s.skipIf_pc_cases _)
  | skp x =>
    rcases execSkp_cases x s with ⟨e, -⟩ | ⟨e, -⟩ <;> cases h.symm.trans e
    · exact .inr (s.skipIf_pc_cases _)
    · exact .inl rfl
  | sknp x =>
    rcases execSknp_cases x s with ⟨e, -⟩ | ⟨e, -⟩ <;> cases h.symm.trans e
    · exact .inr (s.skipIf_pc_cases _)
    · exact .inl rfl
  | drw x y n =>
    rcases execDrw_cases x y n s with ⟨e, -⟩ | ⟨e, -⟩ <;> cases h.symm.trans e
    · exact .inr (.inl rfl)
    · exact .inl rfl
  | ldVxK x =>
    rcases execLdVxK_cases x s with ⟨k, e, -⟩ | ⟨e, -⟩ <;> cases h.symm.trans e
    · exact .inr (.inl rfl)
    · exact .inl rfl
  | ldB x =>
    rcases execLdB_cases x s with ⟨e, -⟩ | ⟨e, -⟩ | ⟨e, -⟩ <;> cases h.symm.trans e
    · exact .inr (.inl rfl)
    all_goals exact .inl rfl
  | storeRegs x =>
    rcases execStoreRegs_cases x s with ⟨e, -⟩ | ⟨e, -⟩ | ⟨e, -⟩ <;> cases h.symm.trans e
    · exact .inr (.inl rfl)
    all_goals exact .inl rfl
  | loadRegs x =>
    rcases execLoadRegs_cases x s with ⟨e, -⟩ | ⟨e, -⟩ <;> cases h.symm.trans e
    · exact .inr (.inl rfl)
    · exact .inl rfl

/-! ### What each instruction can do to memory, `sp` and the timers (spec/20_memory.md R66, R67; spec/10_state.md R27, R30) -/

/-- An instruction leaves the memory list as it is, or makes one store that has passed the checks (R66, R67). -/
theorem exec_mem_cases {i : Instr} {s t : State} (h : exec i s = .next t) :
    t.mem = s.mem ∨ ∃ a bs, t.mem = s.mem.writeBytes a bs ∧ Config.fontEnd ≤ a ∧ a + bs.length ≤ Config.memSize := by
  cases i with
  | call nnn =>
    rcases execCall_cases nnn s with ⟨e, hroom, hbase⟩ | ⟨e, -⟩ | ⟨f, e, -⟩ <;> cases h.symm.trans e
    · simp only [Config.stackCapacity] at hroom
      refine .inr ⟨_, _, rfl, hbase, ?_⟩
      simp only [List.length_cons, List.length_nil, Config.memSize]
      omega
    all_goals exact .inl rfl
  | ldB x =>
    rcases execLdB_cases x s with ⟨e, hlow, hhigh⟩ | ⟨e, -⟩ | ⟨e, -⟩ <;> cases h.symm.trans e
    · refine .inr ⟨_, _, rfl, hlow, ?_⟩
      simp only [bcdDigits_length, Config.memSize]
      omega
    all_goals exact .inl rfl
  | storeRegs x =>
    rcases execStoreRegs_cases x s with ⟨e, hlow, hhigh⟩ | ⟨e, -⟩ | ⟨e, -⟩ <;> cases h.symm.trans e
    · refine .inr ⟨_, _, rfl, hlow, ?_⟩
      simp only [State.regBlock_length, Config.memSize]
      omega
    all_goals exact .inl rfl
  | _ => exact .inl (exec_kept (p := .memory) h (by simp [writes]) (by simp))

/-- An instruction keeps `sp` in its range (R27). -/
theorem exec_spOk {i : Instr} {s t : State} (h : exec i s = .next t) (hsp : s.SpOk) : t.SpOk := by
  have ⟨hbase, htop, heven⟩ := hsp
  simp only [Config.stackBase, Config.stackCapacity] at hbase htop
  cases i with
  | call nnn =>
    rcases execCall_cases nnn s with ⟨e, hroom, -⟩ | ⟨e, -⟩ | ⟨f, e, -⟩ <;> cases h.symm.trans e
    · simp only [Config.stackCapacity] at hroom
      have hpushed : (s.sp + 2#16).toNat = s.sp.toNat + 2 := by bv_omega
      simp only [State.SpOk, State.jump_sp, State.setSp_sp, hpushed, Config.stackBase, Config.stackCapacity]
      omega
    all_goals exact hsp
  | ret =>
    rcases execRet_cases s with ⟨e, hslot⟩ | ⟨e, -⟩ | ⟨f, e, -⟩ <;> cases h.symm.trans e
    · have hpopped : (s.sp - 2#16).toNat = s.sp.toNat - 2 := by bv_omega
      simp only [State.SpOk, State.jump_sp, State.setSp_sp, hpopped, Config.stackBase, Config.stackCapacity]
      omega
    all_goals exact hsp
  | _ =>
    have hkept : t.sp = s.sp := exec_kept (p := .sp) h (by simp [writes]) (by simp)
    simpa only [State.SpOk, hkept] using hsp

/-- An instruction keeps the delay timer in its range (R30). -/
theorem exec_timerOk_dt {i : Instr} {s t : State} (h : exec i s = .next t) (hdt : TimerOk s.dt) : TimerOk t.dt := by
  cases i with
  | ldDT x =>
    cases h
    exact timerLoad_ok (s.reg x)
  | _ =>
    have hkept : t.dt = s.dt := exec_kept (p := .delay) h (by simp [writes]) (by simp)
    rwa [hkept]

/-- An instruction keeps the sound timer in its range (R30). -/
theorem exec_timerOk_st {i : Instr} {s t : State} (h : exec i s = .next t) (hst : TimerOk s.st) : TimerOk t.st := by
  cases i with
  | ldST x =>
    cases h
    exact timerLoad_ok (s.reg x)
  | _ =>
    have hkept : t.st = s.st := exec_kept (p := .sound) h (by simp [writes]) (by simp)
    rwa [hkept]

/-! ### The invariant (spec/10_state.md sections 5 and 6, spec/20_memory.md section 3) -/

/-- No instruction's own fault is `RomTooLarge` (R221, R271). -/
theorem latchable_of_mayRaise {i : Instr} {f : Fault} (h : mayRaise i f = true) : latchable (some f) = true := by
  cases f with
  | romTooLarge => cases i <;> simp [mayRaise] at h
  | _ => rfl

/-- No fault of fetch or decode is `RomTooLarge` (R64, R97, R98). -/
theorem latchable_of_fetchInstr_error {s : State} {f : Fault} (h : s.fetchInstr = .error f) : latchable (some f) = true := by
  by_cases hpc : 0xFFF < s.pc.toNat + 1
  · cases h.symm.trans (State.fetchInstr_of_error (State.fetchWord_of_outOfBounds hpc))
    rfl
  · have hw := State.fetchWord_of_inBounds (Nat.le_of_not_lt hpc)
    cases hd : decodeWord (wordOfBytes (s.mem.read s.pc.toNat) (s.mem.read (s.pc.toNat + 1))) with
    | ok i => cases h.symm.trans (State.fetchInstr_of_decodeWord hw hd)
    | error e =>
      cases h.symm.trans (State.fetchInstr_of_decodeError hw hd)
      cases e <;> rfl

/-- An instruction latches no `RomTooLarge` (R271). -/
theorem exec_latchable {i : Instr} {s t : State} (h : exec i s = .next t) (hsp : s.SpOk) (hf : latchable s.fault = true) :
    latchable t.fault = true := by
  rcases exec_keptBut_or_takesFault h with hkept | ⟨f, rfl, hown⟩
  · have hlatch : t.fault = s.fault := hkept .latch (latch_not_mem_writes i)
    rwa [hlatch]
  · exact latchable_of_mayRaise (hown hsp)

/-- Every instruction keeps the invariant, clause by clause. -/
theorem exec_inv {i : Instr} {s t : State} (h : exec i s = .next t) (hs : s.Inv) : t.Inv := by
  obtain ⟨hwf, hspace, hsp, hdt, hst, hf⟩ := hs
  have hmem : Memory.wf t.mem = true ∧ Memory.inWritableSpace t.mem = true := by
    rcases exec_mem_cases h with hkept | ⟨a, bs, hstore, hlow, hhigh⟩
    · exact hkept ▸ ⟨hwf, hspace⟩
    · rw [hstore]
      exact ⟨Memory.wf_writeBytes bs _ a hwf, Memory.inWritableSpace_writeBytes bs _ a hspace hlow hhigh⟩
  exact ⟨hmem.1, hmem.2, exec_spOk h hsp, exec_timerOk_dt h hdt, exec_timerOk_st h hst, exec_latchable h hsp hf⟩

/-- Settles O15: a tick idles, latches a fault of fetch or decode, or runs an instruction; each keeps the invariant. -/
theorem stepKeepsTheInvariant : Obligations.StepKeepsTheInvariant := by
  intro s t hs h
  rcases step_cases h with ⟨-, ht⟩ | ⟨-, f, hf, ht⟩ | ⟨-, i, -, ht⟩
  · cases ht
    exact hs
  · cases ht
    exact State.inv_takeFault (latchable_of_fetchInstr_error hf) hs
  · exact exec_inv ht.symm hs

end Sys2Proof.Machine

namespace Sys2Proof.Machine

/-! ### What each operation of the host does (spec/60_exceptions.md section 5, spec/70_reset_and_hazards.md section 1) -/

/-- What a load of a ROM that fits leaves: the reset state with the ROM from `0x200` up (R270). -/
def State.loaded (s : State) (rom : List Byte) : State :=
  { State.reset with mem := Memory.writeBytes [] Config.progBase rom, draws := s.draws }

theorem State.load_of_fits (s : State) {rom : List Byte} (h : rom.length ≤ Config.romMax) :
    s.load rom = .ok (s.loaded rom) :=
  if_pos (decide_eq_true h)

theorem State.load_of_tooLarge (s : State) {rom : List Byte} (h : Config.romMax < rom.length) :
    s.load rom = .error (.romTooLarge rom.length) :=
  if_neg (by simpa [wellFormedRom] using h)

theorem perform_load_of_fits (s : State) {rom : List Byte} (h : rom.length ≤ Config.romMax) :
    perform (.load rom) s = .next (s.loaded rom) := by
  simp only [perform, s.load_of_fits h]

/-- A refused load leaves the old state (R271). -/
theorem perform_load_of_tooLarge (s : State) {rom : List Byte} (h : Config.romMax < rom.length) :
    perform (.load rom) s = .next s := by
  simp only [perform, s.load_of_tooLarge h]

theorem State.updateTimers_of_nonneg (s : State) {dt : Config.TimerNumber} (h : 0 ≤ dt) :
    s.updateTimers dt = .next ((s.setDT (timerAfter s.dt dt)).setST (timerAfter s.st dt)) :=
  if_pos (decide_eq_true h)

theorem State.updateTimers_of_neg (s : State) {dt : Config.TimerNumber} (h : dt < 0) :
    s.updateTimers dt = .refused (.negativeElapsed dt) :=
  if_neg (by simpa [wellFormedElapsed] using h)

theorem State.driveKey_of_outOfRange (s : State) {k : Nat} (h : 15 < k) (level : Bool) :
    s.driveKey k level = .refused (.keyOutOfRange k) :=
  dif_neg (by omega)

/-- A timer update that answers a next state had a time of at least 0, and writes the two timers (R241, R246). -/
theorem State.updateTimers_eq_next {s t : State} {dt : Config.TimerNumber} (h : s.updateTimers dt = .next t) :
    0 ≤ dt ∧ t = (s.setDT (timerAfter s.dt dt)).setST (timerAfter s.st dt) := by
  rcases lt_or_ge dt 0 with hneg | hnonneg
  · cases h.symm.trans (s.updateTimers_of_neg hneg)
  · cases h.symm.trans (s.updateTimers_of_nonneg hnonneg)
    exact ⟨hnonneg, rfl⟩

/-- A key call that answers a next state writes the key latch alone (R239, R240). -/
theorem State.driveKey_eq_next {s t : State} {k : Nat} {level : Bool} (h : s.driveKey k level = .next t) :
    ∃ key, t = s.setKeys key := by
  by_cases hk : k < 16
  · cases h.symm.trans (s.driveKey_fin ⟨k, hk⟩ level)
    exact ⟨_, rfl⟩
  · cases h.symm.trans (s.driveKey_of_outOfRange (by omega) level)

/-- Settles O55: each call's test of its domain fails. -/
theorem hostCallsOutsideTheirDomainAreRefused : Obligations.HostCallsOutsideTheirDomainAreRefused :=
  fun s _ _ => ⟨fun hk => ⟨s.driveKey_of_outOfRange hk true, s.driveKey_of_outOfRange hk false⟩, s.updateTimers_of_neg⟩

/-- Settles O58: the load of a ROM that is too long is an error, which leaves the state and is what the host gets back. -/
theorem romTooLargeLeavesTheState : Obligations.RomTooLargeLeavesTheState := by
  intro s rom h
  refine ⟨perform_load_of_tooLarge s h, ?_⟩
  simp only [answer, s.load_of_tooLarge h]

/-- Settles O59: the read-outs answer three views of the state, of which only the delay timer's rounds. -/
theorem readOutsAnswerAndChangeNothing : Obligations.ReadOutsAnswerAndChangeNothing :=
  fun s => ⟨rfl, rfl, rfl, rfl, fun hdt => ⟨s.delayTimer, rfl, timerView_toNat s.dt hdt⟩, rfl⟩

/-! ### The timer update (spec/60_exceptions.md section 6) -/

/-- Settles O52: both timers take the clamped difference, and the update writes nothing else. -/
theorem updateTimersDecrementsBoth : Obligations.UpdateTimersDecrementsBoth := by
  intro s dt h
  exact ⟨_, s.updateTimers_of_nonneg h, timerAfter_eq s.dt dt, timerAfter_eq s.st dt,
    (s.sameBut_setDT (by simp) _).trans (State.sameBut_setST (by simp) _ _)⟩

/-- A timer that has lost two times has lost their sum: the clamp at 0 may come early, never late. -/
theorem timerAfter_timerAfter (t : Config.TimerNumber) {a b : Config.TimerNumber} (hb : 0 ≤ b) :
    timerAfter (timerAfter t a) b = timerAfter t (a + b) := by
  simp only [timerAfter_eq]
  have hsum : t - 60 * (a + b) = t - 60 * a - 60 * b := by ring
  rcases le_total (t - 60 * a) 0 with hclamped | hleft
  · rw [max_eq_left hclamped, hsum, max_eq_left (by linarith), max_eq_left (by linarith)]
  · rw [max_eq_right hleft, hsum]

/-- Settles O53: each timer loses the sum of the two times. -/
theorem timerUpdatesAddUp : Obligations.TimerUpdatesAddUp := by
  intro s a b ha hb
  refine ⟨_, _, s.updateTimers_of_nonneg ha, State.updateTimers_of_nonneg _ hb, ?_⟩
  refine (s.updateTimers_of_nonneg (add_nonneg ha hb)).trans ?_
  rw [← timerAfter_timerAfter s.dt hb, ← timerAfter_timerAfter s.st hb]
  rfl

/-! ### The reset contents (spec/20_memory.md R63, spec/70_reset_and_hazards.md section 1) -/

/-- Below `0x050` an unlisted address reads as the font table (R63). -/
theorem fontTable_getElem? {a : Nat} (ha : a < 0x050) : Config.fontTable[a]? = some (Memory.background a) := by
  have hlength : Config.fontTable.length = 0x050 := by decide
  rw [Memory.background, if_pos ha, List.getD_eq_getElem _ _ (by omega), List.getElem?_eq_getElem]

/-- From `0x050` up an unlisted address reads as zero (R26, D14). -/
theorem Memory.background_of_ge {a : Nat} (ha : 0x050 ≤ a) : Memory.background a = 0#8 :=
  if_neg (Nat.not_lt.2 ha)

/-- With nothing listed in it, the font region reads as the font table, byte for byte (R63). -/
theorem Memory.fontTable_getElem?_eq_read {m : Memory} (h : Memory.inWritableSpace m = true) {a : Nat} (ha : a < 0x050) :
    Config.fontTable[a]? = some (m.read a) := by
  rw [fontTable_getElem? ha, m.read_font h ha]

/-- Outside the ROM a loaded memory reads as the reset contents (R270). -/
theorem State.loaded_read_outside (s : State) {rom : List Byte} {a : Nat} (h : a < 0x200 ∨ 0x200 + rom.length ≤ a) :
    (s.loaded rom).mem.read a = Memory.background a :=
  Memory.read_writeBytes_outside [] h

/-- Settles O57: the ROM's bytes read back where they were stored, every other byte reads as the reset contents, and every other
element is that of `State.reset`. -/
theorem loadBringsTheMachineToReset : Obligations.LoadBringsTheMachineToReset := by
  intro s rom h
  refine ⟨s.loaded rom, perform_load_of_fits s h, ?_, fun a ha => ?_, fun a ha ha' => ?_, fun j hj => ?_, fun a ha => ?_,
    fun r => ?_, rfl, rfl, rfl, fun c => ?_, fun k => ?_, rfl, rfl, rfl⟩
  · simp only [answer, s.load_of_fits h]
  · rw [s.loaded_read_outside (.inl (by omega)), fontTable_getElem? ha]
  · rw [s.loaded_read_outside (.inl ha'), Memory.background_of_ge ha]
  · exact Memory.read_writeBytes_inside [] hj
  · rw [s.loaded_read_outside (.inr ha), Memory.background_of_ge (by omega)]
  · exact Vector.getElem_replicate r.isLt
  · exact Vector.getElem_replicate c.isLt
  · exact Vector.getElem_replicate k.isLt

/-- Settles O60: `State.reset` lists no byte, so the word at `0x200` is zero, a native call. -/
theorem emptyRomFaultsAtTheFirstTick : Obligations.EmptyRomFaultsAtTheFirstTick := by
  refine ⟨perform_load_of_fits State.reset (Nat.zero_le _), ?_⟩
  have hfetch : State.reset.fetchWord = .ok 0x0000#16 := rfl
  have hdecode : decodeWord 0x0000#16 = .error (.nativeCall 0x0000#16) := rfl
  exact step_raises_of_fetchInstr_error rfl (State.fetchInstr_of_decodeError hfetch hdecode)

/-! ### The invariant and the latch, over every operation (spec/60_exceptions.md sections 2 and 5) -/

theorem timerOk_zero : TimerOk 0 := ⟨le_rfl, by norm_num⟩

/-- Settles O14: each clause is evaluated. -/
theorem resetMeetsTheInvariant : Obligations.ResetMeetsTheInvariant :=
  ⟨rfl, rfl, by decide, timerOk_zero, timerOk_zero, rfl⟩

/-- A load of a ROM that fits establishes the invariant: the ROM is stored inside the user region (R270, R271). -/
theorem State.loaded_inv (s : State) {rom : List Byte} (h : rom.length ≤ Config.romMax) : (s.loaded rom).Inv := by
  obtain ⟨hwf, hspace, hrest⟩ := resetMeetsTheInvariant
  simp only [Config.romMax] at h
  refine ⟨Memory.wf_writeBytes rom _ _ hwf, Memory.inWritableSpace_writeBytes rom _ _ hspace ?_ ?_, hrest⟩
  · simp only [Config.fontEnd, Config.progBase]
    omega
  · simp only [Config.progBase, Config.memSize]
    omega

/-- Every operation keeps the invariant: a load establishes it, a tick is a step, and the others leave memory, `sp` and the latch
alone (R236). -/
theorem perform_inv {op : Operation} {s t : State} (hs : s.Inv) (h : perform op s = .next t) : t.Inv := by
  cases op with
  | load rom =>
    rcases Nat.lt_or_ge Config.romMax rom.length with hlarge | hfits
    · cases h.symm.trans (perform_load_of_tooLarge s hlarge)
      exact hs
    · cases h.symm.trans (perform_load_of_fits s hfits)
      exact s.loaded_inv hfits
  | tick => exact stepKeepsTheInvariant s t hs h
  | busReset =>
    cases h
    obtain ⟨hwf, hspace, hsp, -, -, hf⟩ := hs
    exact ⟨hwf, hspace, hsp, timerOk_zero, timerOk_zero, hf⟩
  | updateTimers dt =>
    obtain ⟨hnonneg, rfl⟩ := State.updateTimers_eq_next h
    obtain ⟨hwf, hspace, hsp, hdt, hst, hf⟩ := hs
    exact ⟨hwf, hspace, hsp, timerAfter_ok s.dt dt hdt hnonneg, timerAfter_ok s.st dt hst hnonneg, hf⟩
  | setKey | clearKey =>
    obtain ⟨key, rfl⟩ := State.driveKey_eq_next h
    exact hs
  | display | delayTimer | soundActive =>
    cases h
    exact hs

/-- Every reachable state meets the invariant: reset does and every operation keeps it. -/
theorem Reachable.inv {s : State} (h : Reachable s) : s.Inv := by
  induction h with
  | reset => exact resetMeetsTheInvariant
  | step op _ hop ih => exact perform_inv ih hop

/-- Settles O16: one operation is `perform_inv`, a sequence of them its induction. -/
theorem everyReachableStateMeetsTheInvariant : Obligations.EveryReachableStateMeetsTheInvariant :=
  ⟨fun _ _ _ => perform_inv, fun _ => Reachable.inv⟩

/-- No tick changes a byte of the font: a tick makes at most one store, and one that has passed the checks starts at `0x050` or
above (R67). -/
theorem step_read_font {s t : State} (h : step s = .next t) {a : Nat} (ha : a < 0x050) : t.mem.read a = s.mem.read a := by
  rcases step_cases h with ⟨-, ht⟩ | ⟨-, f, -, ht⟩ | ⟨-, i, -, ht⟩
  · cases ht
    rfl
  · cases ht
    rfl
  · rcases exec_mem_cases ht.symm with hkept | ⟨b, bs, hstore, hlow, -⟩
    · rw [hkept]
    · rw [hstore, Memory.read_writeBytes_outside s.mem (.inl (lt_of_lt_of_le ha hlow))]

/-- Settles O17: stores start above the font, and by the invariant no reachable memory lists a byte of it. -/
theorem theFontIsNeverMutated : Obligations.TheFontIsNeverMutated := by
  refine ⟨fun s t h a => step_read_font h, fun s hs a ha => ?_⟩
  obtain ⟨-, hspace, -⟩ := hs.inv
  exact Memory.fontTable_getElem?_eq_read hspace ha

/-- An operation that is neither a load nor a tick leaves the latch as it is (R225, R227). -/
theorem perform_fault_kept {op : Operation} {s t : State} (hload : ∀ rom, op ≠ .load rom) (htick : op ≠ .tick)
    (h : perform op s = .next t) : t.fault = s.fault := by
  cases op with
  | load rom => exact absurd rfl (hload rom)
  | tick => exact absurd rfl htick
  | updateTimers dt =>
    obtain ⟨-, rfl⟩ := State.updateTimers_eq_next h
    rfl
  | setKey | clearKey =>
    obtain ⟨key, rfl⟩ := State.driveKey_eq_next h
    rfl
  | busReset | display | delayTimer | soundActive =>
    cases h
    rfl

/-- Settles O21: a tick of a faulted core is idle, and no other operation but a load writes the latch. -/
theorem onlyALoadEndsAFault : Obligations.OnlyALoadEndsAFault := by
  intro op s t hload h
  refine ⟨fun hfaulted => ?_, fun htick => perform_fault_kept hload htick h⟩
  by_cases htick : op = .tick
  · subst htick
    obtain ⟨f, hf⟩ := Option.ne_none_iff_exists'.1 hfaulted
    cases h.symm.trans (faultedCoreTicksIdle s f hf)
    rfl
  · exact perform_fault_kept hload htick h

end Sys2Proof.Machine

namespace Sys2Proof.Machine

/-! ### Control transfer (spec/40_flow.md sections 2 and 3) -/

/-- Settles O28: SE and SNE are skips on opposite conditions. -/
theorem skipsOnTwoRegisters : Obligations.SkipsOnTwoRegisters := by
  intro s x y
  refine ⟨⟨s.skipIf (s.reg x == s.reg y), rfl, ?_, s.sameBut_skipIf _⟩,
    ⟨s.skipIf (s.reg x != s.reg y), rfl, ?_, s.sameBut_skipIf _⟩⟩
  · simp
  · by_cases h : s.reg x = s.reg y <;> simp [h]

/-- Settles O29: the return pops from the slot the call pushed to, two below its `sp`, and the slot's bytes join to the address
after the call. -/
theorem returnComesBackFromCall : Obligations.ReturnComesBackFromCall := by
  intro s t u nnn hsp hroom hcall hu hhigh hlow
  cases hcall.symm.trans (execCall_room hsp hroom)
  simp only [State.jump_sp, State.setSp_sp, State.jump_mem, State.setSp_mem, State.setMem_mem] at hu hhigh hlow
  have ⟨hbase, htop, heven⟩ := hsp
  simp only [Config.stackBase, Config.stackCapacity] at hbase htop hroom
  have hpushed : u.sp.toNat = s.sp.toNat + 2 := by rw [hu]; bv_omega
  have husp : u.SpOk := by
    simp only [State.SpOk, hpushed, Config.stackBase, Config.stackCapacity]
    omega
  have hne : u.sp ≠ 0x050#16 := fun h => by
    rw [h] at hpushed
    simp only [BitVec.toNat_ofNat] at hpushed
    omega
  refine ⟨_, execRet_nonempty husp hne, ?_, ?_, ?_⟩
  · have hret : u.mem.read s.sp.toNat = highByte (s.pc + 2#16) :=
      hhigh.trans (Memory.read_writeBytes_inside s.mem (k := 0) (by simp))
    have hret' : u.mem.read (s.sp.toNat + 1) = lowByte (s.pc + 2#16) :=
      hlow.trans (Memory.read_writeBytes_inside s.mem (k := 1) (by simp))
    rw [State.jump_pc, hpushed, Nat.add_sub_cancel, show s.sp.toNat + 2 - 1 = s.sp.toNat + 1 by omega, hret, hret',
      wordOfBytes_bytes]
  · rw [State.jump_sp, State.setSp_sp, hu, BitVec.add_sub_cancel]
  · exact (u.sameBut_setSp (by simp) _).trans (State.sameBut_jump (by simp) _ _)

/-! ### Bitwise logic, arithmetic with a flag, shifts and the random byte (spec/41_alu.md sections 3 to 6) -/

/-- Settles O32: each is one register write, of the bitwise result. -/
theorem bitwiseLogic : Obligations.BitwiseLogic := by
  intro s x y
  refine ⟨⟨_, rfl, fun b _ => ?_, s.setReg_next_frame x _⟩, ⟨_, rfl, fun b _ => ?_, s.setReg_next_frame x _⟩,
    ⟨_, rfl, fun b _ => ?_, s.setReg_next_frame x _⟩⟩
  · rw [State.next_reg, State.reg_setReg_same, BitVec.getLsbD_or]
  · rw [State.next_reg, State.reg_setReg_same, BitVec.getLsbD_and]
  · rw [State.next_reg, State.reg_setReg_same, BitVec.getLsbD_xor]

/-- The destination of a result and a flag holds the result, unless it is `VF`, which holds the flag (R152). -/
theorem State.reg_setResultAndFlag_next (s : State) {x : RegIx} (hx : x ≠ flagReg) (r : Byte) (c : Bool) :
    (s.setResultAndFlag x r c).next.reg x = r := by
  rw [State.next_reg, State.reg_setResultAndFlag, if_neg hx, if_pos rfl]

/-- The frame shared by the instructions that write a result and then the flag. -/
theorem State.setResultAndFlag_next_frame (s : State) (x : RegIx) (r : Byte) (c : Bool) :
    RegsBut [x, flagReg] s (s.setResultAndFlag x r c).next ∧ (s.setResultAndFlag x r c).next.pc = s.pc + 2#16 ∧
      SameBut [.regs, .pc] s (s.setResultAndFlag x r c).next := by
  refine ⟨fun r' hr => ?_, rfl, ?_⟩
  · simp only [List.mem_cons, List.not_mem_nil, or_false, not_or] at hr
    rw [State.next_reg, State.reg_setResultAndFlag, if_neg hr.2, if_neg hr.1]
  · exact (s.sameBut_setReg (by simp) x r).trans
      ((State.sameBut_setReg (by simp) _ _ _).trans (State.sameBut_next (by simp) _))

/-- A flag that a comparison decides, as the byte `VF` holds. -/
theorem flagByte_decide (p : Prop) [Decidable p] : flagByte (decide p) = if p then 1#8 else 0#8 := by
  simp [flagByte]

theorem flagByte_toNat (c : Bool) : (flagByte c).toNat = c.toNat := by
  cases c <;> rfl

/-- Settles O33: the sum wraps, and the carry is the comparison of the unwrapped sum with 255. -/
theorem addRegistersWithCarry : Obligations.AddRegistersWithCarry := by
  intro s x y
  refine ⟨_, rfl, fun hx => ?_, ?_, s.setResultAndFlag_next_frame x _ _⟩
  · rw [s.reg_setResultAndFlag_next hx, BitVec.toNat_add]
  · exact (s.reg_flagReg_setResultAndFlag x _ _).trans (flagByte_decide _)

/-- A subtraction modulo 256, with the minuend lifted by 256 so that the naturals do not truncate. -/
theorem toNat_sub_byte (a b : Byte) : (a - b).toNat = (a.toNat + 256 - b.toNat) % 256 := by
  have := b.isLt
  rw [BitVec.toNat_sub]
  omega

/-- Settles O34: SUB and SUBN are the same difference and comparison with the operands exchanged. -/
theorem subtractionsWithBorrow : Obligations.SubtractionsWithBorrow := by
  intro s x y
  refine ⟨⟨_, rfl, fun hx => ?_, ?_, s.setResultAndFlag_next_frame x _ _⟩,
    ⟨_, rfl, fun hx => ?_, ?_, s.setResultAndFlag_next_frame x _ _⟩⟩
  · rw [s.reg_setResultAndFlag_next hx, toNat_sub_byte]
  · exact (s.reg_flagReg_setResultAndFlag x _ _).trans (flagByte_decide _)
  · rw [s.reg_setResultAndFlag_next hx, toNat_sub_byte]
  · exact (s.reg_flagReg_setResultAndFlag x _ _).trans (flagByte_decide _)

/-- The bit a right shift moves out is the remainder by 2 (R148). -/
theorem flagByte_shrBitOut_toNat (a : Byte) : (flagByte (shrBitOut a)).toNat = a.toNat % 2 := by
  rw [flagByte_toNat, shrBitOut, BitVec.getLsbD, Nat.testBit_zero]
  rcases Nat.mod_two_eq_zero_or_one a.toNat with h | h <;> simp [h]

/-- The bit a left shift moves out is the quotient by 128 (R150). -/
theorem flagByte_shlBitOut_toNat (a : Byte) : (flagByte (shlBitOut a)).toNat = a.toNat / 128 := by
  rw [flagByte_toNat, shlBitOut, BitVec.getLsbD, Nat.testBit_eq_decide_div_mod_eq]
  have hquotient : a.toNat / 128 = 0 ∨ a.toNat / 128 = 1 := by
    have := a.isLt
    omega
  rcases hquotient with h | h <;> simp [h]

/-- Settles O35: the operand is `Vx` whatever `y` is, and the bit the shift moves out is a remainder or a quotient. -/
theorem shiftsInPlace : Obligations.ShiftsInPlace := by
  intro s x y
  refine ⟨⟨_, rfl, fun hx => ?_, ?_, s.setResultAndFlag_next_frame x _ _⟩,
    ⟨_, rfl, fun hx => ?_, ?_, s.setResultAndFlag_next_frame x _ _⟩⟩
  · rw [s.reg_setResultAndFlag_next hx, shiftOperand_eq, BitVec.toNat_ushiftRight, Nat.shiftRight_eq_div_pow]
  · exact (congrArg BitVec.toNat (s.reg_flagReg_setResultAndFlag x _ _)).trans (flagByte_shrBitOut_toNat _)
  · rw [s.reg_setResultAndFlag_next hx, shiftOperand_eq, BitVec.toNat_shiftLeft, Nat.shiftLeft_eq, Nat.mul_comm]
  · exact (congrArg BitVec.toNat (s.reg_flagReg_setResultAndFlag x _ _)).trans (flagByte_shlBitOut_toNat _)

theorem State.sameBut_countDraw {changed : List Part} (hdraws : .draws ∈ changed) (s : State) :
    SameBut changed s s.countDraw := by
  intro p hp
  cases p <;> simp_all [Part.same]

/-- Settles O36: one register write, of the masked byte, and one draw, whatever the mask. -/
theorem randomByteIsMasked : Obligations.RandomByteIsMasked := by
  intro s x nn
  exact ⟨_, rfl, s.reg_setReg_same x _, rfl, s.regsBut_setReg x _, rfl, (s.sameBut_setReg (by simp) x _).trans
    ((State.sameBut_countDraw (by simp) _).trans (State.sameBut_next (by simp) _))⟩

end Sys2Proof.Machine

namespace Sys2Proof.Machine

/-! ### The address register (spec/42_index_memory.md section 2) -/

/-- Settles O38: ADD I is one write of `I`, of the 16-bit sum. -/
theorem addToIndexWraps : Obligations.AddToIndexWraps :=
  fun s x => ⟨_, rfl, indexSum_toNat s x, rfl, s.sameBut_setI_next _⟩

/-- Settles O39: LD F is one write of `I`, and the glyphs stand five bytes apart in a font that no listed byte hides. -/
theorem fontAddressOfADigit : Obligations.FontAddressOfADigit := by
  intro s x
  refine ⟨_, rfl, glyphAddr_toNat (s.reg x), rfl, s.sameBut_setI_next _, fun hdigit hspace k hk => ?_⟩
  rw [State.next_i, State.setI_i, glyphAddr_toNat]
  exact Memory.fontTable_getElem?_eq_read hspace (by omega)

/-! ### The stores and the load through `I` (spec/42_index_memory.md section 3) -/

/-- A store through `I` that passes both checks (R173, R175). -/
theorem State.storeAtI_fits (s : State) {bytes : List Byte} (hlow : 0x050 ≤ s.i.toNat)
    (hhigh : s.i.toNat + bytes.length ≤ 0x1000) :
    settle s (s.storeAtI bytes) = .next (s.setMem (s.mem.writeBytes s.i.toNat bytes)).next := by
  rcases s.storeAtI_cases bytes with ⟨h, -⟩ | ⟨-, -, h⟩ | ⟨-, -, -, h⟩
  · exact h
  · omega
  · omega

/-- A store through `I` that leaves memory: the bounds are checked first (R66, R174). -/
theorem State.storeAtI_outOfBounds (s : State) {bytes : List Byte} (hbytes : bytes.length ≠ 0)
    (h : 0x1000 < s.i.toNat + bytes.length) :
    ∃ t, settle s (s.storeAtI bytes) = .next t ∧ Raises s t (.memoryBounds (max s.i.toNat 0x1000)) := by
  rcases s.storeAtI_cases bytes with ⟨-, h'⟩ | ⟨h', -⟩ | ⟨-, -, h', -⟩
  · omega
  · exact ⟨_, h', takeFault_raises s _⟩
  · omega

/-- A store through `I` that stays in memory and begins in the font (R67, R174). -/
theorem State.storeAtI_font (s : State) {bytes : List Byte} (hbytes : bytes.length ≠ 0) (h : s.i.toNat < 0x050)
    (hhigh : s.i.toNat + bytes.length ≤ 0x1000) :
    ∃ t, settle s (s.storeAtI bytes) = .next t ∧ Raises s t (.fontWrite s.i.toNat) := by
  rcases s.storeAtI_cases bytes with ⟨-, h'⟩ | ⟨-, -, h'⟩ | ⟨h', -⟩
  · omega
  · omega
  · exact ⟨_, h', takeFault_raises s _⟩

/-- The frame of a store through `I`: memory outside the bytes stored, and every other part (R173, R175). -/
theorem State.setMem_next_frame (s : State) (bytes : List Byte) :
    (∀ a, a < s.i.toNat ∨ s.i.toNat + bytes.length ≤ a →
      (s.setMem (s.mem.writeBytes s.i.toNat bytes)).next.mem.read a = s.mem.read a) ∧
    (s.setMem (s.mem.writeBytes s.i.toNat bytes)).next.pc = s.pc + 2#16 ∧
    SameBut [.memory, .pc] s (s.setMem (s.mem.writeBytes s.i.toNat bytes)).next :=
  ⟨fun _ ha => Memory.read_writeBytes_outside s.mem ha, rfl,
    (s.sameBut_setMem (by simp) _).trans (State.sameBut_next (by simp) _)⟩

/-- Three bytes stored read back in order (R72). -/
theorem Memory.read_writeBytes_triple (m : Memory) (a : Nat) (b₀ b₁ b₂ : Byte) :
    (m.writeBytes a [b₀, b₁, b₂]).read a = b₀ ∧ (m.writeBytes a [b₀, b₁, b₂]).read (a + 1) = b₁ ∧
      (m.writeBytes a [b₀, b₁, b₂]).read (a + 2) = b₂ :=
  ⟨Memory.read_writeBytes_inside m (k := 0) (by simp), Memory.read_writeBytes_inside m (k := 1) (by simp),
    Memory.read_writeBytes_inside m (k := 2) (by simp)⟩

/-- Settles O40: the three bytes stored are the decimal digits; the two faults are those of the store's two checks. -/
theorem bcdStoreOrFaults : Obligations.BcdStoreOrFaults := by
  intro s x
  have hlength := bcdDigits_length (s.reg x)
  refine ⟨fun hlow hhigh => ?_, fun h => s.storeAtI_outOfBounds (by omega) (by omega),
    fun h => s.storeAtI_font (by omega) h (by omega)⟩
  obtain ⟨hundreds, tens, ones, hdigits, hvalue, htens, hones⟩ := bcdDigits_value (s.reg x)
  obtain ⟨hread₀, hread₁, hread₂⟩ := s.mem.read_writeBytes_triple s.i.toNat hundreds tens ones
  obtain ⟨hother, hpc, hframe⟩ := s.setMem_next_frame [hundreds, tens, ones]
  refine ⟨_, s.storeAtI_fits hlow (by omega), ?_⟩
  rw [hdigits]
  refine ⟨?_, ?_, ?_, fun a ha => hother a (by simpa [Nat.succ_le_iff] using ha), hpc, hframe⟩
  · rw [State.next_mem, State.setMem_mem, hread₀, hread₁, hread₂, hvalue]
  · rwa [State.next_mem, State.setMem_mem, hread₁]
  · rwa [State.next_mem, State.setMem_mem, hread₂]

/-- Each register of the block reads back from its own address (R175). -/
theorem State.read_writeBytes_regBlock (s : State) {x k : RegIx} (hk : k ≤ x) :
    (s.mem.writeBytes s.i.toNat (s.regBlock x)).read (s.i.toNat + k.toNat) = s.reg k := by
  have hlength : k.toNat < (s.regBlock x).length := by
    rw [State.regBlock_length]
    exact Nat.lt_succ_of_le hk
  rw [Memory.read_writeBytes_inside s.mem hlength, State.regBlock_getElem]

theorem execStoreRegs_fits {x : RegIx} {s : State} (hlow : 0x050 ≤ s.i.toNat) (hhigh : s.i.toNat + x.toNat ≤ 0xFFF) :
    execStoreRegs x s = .next (s.setMem (s.mem.writeBytes s.i.toNat (s.regBlock x))).next :=
  s.storeAtI_fits hlow (by rw [State.regBlock_length]; omega)

/-- Settles O41: the block stored is `V0` to `Vx`; the two faults are those of the store's two checks. -/
theorem blockStoreOrFaults : Obligations.BlockStoreOrFaults := by
  intro s x
  have hx := x.isLt
  have hlength := s.regBlock_length x
  refine ⟨fun hlow hhigh => ?_, fun h => s.storeAtI_outOfBounds (by omega) (by omega),
    fun h => s.storeAtI_font (by omega) h (by omega)⟩
  obtain ⟨hother, hpc, hframe⟩ := s.setMem_next_frame (s.regBlock x)
  exact ⟨_, execStoreRegs_fits hlow hhigh, fun k hk => s.read_writeBytes_regBlock hk, fun a ha => hother a (by omega), hpc,
    hframe⟩

theorem execLoadRegs_fits {x : RegIx} {s : State} (h : s.i.toNat + x.toNat ≤ 0xFFF) :
    execLoadRegs x s = .next (s.setRegs (s.loadedRegs x)).next := by
  rcases execLoadRegs_cases x s with ⟨h', -⟩ | ⟨-, h'⟩
  · exact h'
  · omega

theorem execLoadRegs_outOfBounds {x : RegIx} {s : State} (h : 0xFFF < s.i.toNat + x.toNat) :
    execLoadRegs x s = .next (s.takeFault (.memoryBounds (max s.i.toNat 0x1000))) := by
  rcases execLoadRegs_cases x s with ⟨-, h'⟩ | ⟨h', -⟩
  · omega
  · exact h'

/-- A register of the block holds the byte at its address after a block load (R176). -/
theorem State.reg_loadedRegs_of_le (s : State) {x k : RegIx} (hk : k ≤ x) :
    (s.setRegs (s.loadedRegs x)).reg k = s.mem.read (s.i.toNat + k.toNat) := by
  rw [State.reg_loadedRegs, if_pos (BitVec.le_def.1 hk)]

theorem State.sameBut_setRegs {changed : List Part} (hregs : .regs ∈ changed) (s : State) (v : Vector Byte 16) :
    SameBut changed s (s.setRegs v) := by
  intro p hp
  cases p <;> simp_all [Part.same]

/-- Settles O42: in bounds the register file is replaced by the loaded one; out of bounds the check faults. -/
theorem blockLoadOrFaults : Obligations.BlockLoadOrFaults := by
  intro s x
  refine ⟨fun h => ?_, fun h => ⟨_, execLoadRegs_outOfBounds h, takeFault_raises s _⟩⟩
  refine ⟨_, execLoadRegs_fits h, fun k hk => s.reg_loadedRegs_of_le hk, fun k hk => ?_, rfl,
    (s.sameBut_setRegs (by simp) _).trans (State.sameBut_next (by simp) _)⟩
  rw [State.next_reg, State.reg_loadedRegs, if_neg (Nat.not_le.2 (BitVec.lt_def.1 hk))]

/-- Settles O43: the load reads each register from the address the store wrote it to. -/
theorem blockLoadInvertsBlockStore : Obligations.BlockLoadInvertsBlockStore := by
  intro s x hlow hhigh
  refine ⟨_, execStoreRegs_fits hlow hhigh, fun u hi hmem => ?_⟩
  have hi : u.i = s.i := hi
  refine ⟨_, execLoadRegs_fits (by rwa [hi]), fun k hk => ?_⟩
  rw [State.next_reg, u.reg_loadedRegs_of_le hk, hmem, hi]
  exact s.read_writeBytes_regBlock hk

/-- Settles O44: the next fetch reads the addresses of `V[k]` and its successor. -/
theorem storedCodeIsFetchedNext : Obligations.StoredCodeIsFetchedNext := by
  intro s x k hlow hhigh hk hpc
  have hlt := BitVec.lt_def.1 hk
  have hsucc : (k + 1#4).toNat = k.toNat + 1 := by
    have := x.isLt
    rw [BitVec.toNat_add]
    simp only [BitVec.toNat_ofNat]
    omega
  refine ⟨_, execStoreRegs_fits hlow hhigh, ?_⟩
  rw [State.fetchWord_of_inBounds (by rw [State.next_pc, State.setMem_pc, hpc]; omega), State.next_pc, State.setMem_pc, hpc,
    State.next_mem, State.setMem_mem, s.read_writeBytes_regBlock (BitVec.le_of_lt hk), Nat.add_assoc, ← hsucc,
    s.read_writeBytes_regBlock (BitVec.le_def.2 (by omega))]

/-! ### Sprites (spec/43_display.md section 2) -/

theorem execDrw_fits {x y : RegIx} {n : Nibble} {s : State} (h : n = 0#4 ∨ s.i.toNat + n.toNat ≤ 0x1000) :
    execDrw x y n s = .next ((s.setFb (drawSprite s (s.reg x).toNat (s.reg y).toNat n.toNat).1).setReg flagReg
      (flagByte (drawSprite s (s.reg x).toNat (s.reg y).toNat n.toNat).2)).next := by
  rcases execDrw_cases x y n s with ⟨h', -⟩ | ⟨-, hrows, hout⟩
  · exact h'
  · exact absurd h (not_or.2 ⟨hrows, Nat.not_le.2 hout⟩)

theorem execDrw_outOfBounds {x y : RegIx} {n : Nibble} {s : State} (hrows : n ≠ 0#4) (h : 0x1000 < s.i.toNat + n.toNat) :
    execDrw x y n s = .next (s.takeFault (.memoryBounds (max s.i.toNat 0x1000))) := by
  rcases execDrw_cases x y n s with ⟨-, hzero | hin⟩ | ⟨h', -⟩
  · exact absurd hzero hrows
  · omega
  · exact h'

/-- Settles O46: a sprite has at most 15 rows, so the engine draws no cell twice; `VF` is the flag of its collision. -/
theorem drawTogglesExactlyTheOpaqueCells : Obligations.DrawTogglesExactlyTheOpaqueCells := by
  intro s x y n
  refine ⟨fun h => ?_, fun hrows h => ⟨_, execDrw_outOfBounds hrows h, takeFault_raises s _⟩⟩
  have hn := n.isLt
  obtain ⟨htoggled, hkept, hhit⟩ := drawSprite_spec s (s.reg x).toNat (s.reg y).toNat n.toNat (by omega)
  refine ⟨_, execDrw_fits h, htoggled, hkept, fun hset => ?_, fun hunset => ?_, fun r hr => ?_, rfl, ?_⟩
  · rw [State.next_reg, State.reg_setReg_same, hhit.2 hset]
    rfl
  · have hmiss : (drawSprite s (s.reg x).toNat (s.reg y).toNat n.toNat).2 = false := by
      rw [Bool.eq_false_iff]
      intro hcollided
      obtain ⟨c, hc, hset⟩ := hhit.1 hcollided
      simp [hunset c hc] at hset
    rw [State.next_reg, State.reg_setReg_same, hmiss]
    rfl
  · exact State.reg_setReg_other _ flagReg r _ (List.ne_of_not_mem_cons hr)
  · exact (s.sameBut_setFb (by simp) _).trans
      ((State.sameBut_setReg (by simp) _ _ _).trans (State.sameBut_next (by simp) _))

/-- Settles O47: the second draw has the same sprite at the same place, so it flips the same cells back, and it collides where
the first draw set a cell. -/
theorem drawingTwiceRestoresTheFramebuffer : Obligations.DrawingTwiceRestoresTheFramebuffer := by
  intro s x y n hx hy hfits
  obtain ⟨t, hdraw, htoggled, hkept, -, -, hregs, -, hframe⟩ := (drawTogglesExactlyTheOpaqueCells s x y n).1 hfits
  have hi : t.i = s.i := hframe .index (by simp)
  have hsprite := opaqueCell_congr (hframe .memory (by simp)) hi
  obtain ⟨u, hdraw', htoggled', hkept', hhit, hmiss, hregs', -, hframe'⟩ :=
    (drawTogglesExactlyTheOpaqueCells t x y n).1 (by rwa [hi])
  rw [hregs x (by simpa using hx), hregs y (by simpa using hy)] at htoggled' hkept' hhit hmiss
  simp only [hsprite] at htoggled' hkept' hhit hmiss
  refine ⟨t, u, hdraw, hdraw', fun r hr => (hregs' r hr).trans (hregs r hr), fun p hp => ?_, ?_, ?_⟩
  · by_cases hfb : p = .framebuffer
    · subst hfb
      intro c
      by_cases hc : OpaqueCell s (s.reg x).toNat (s.reg y).toNat n.toNat c
      · rw [htoggled' c hc, htoggled c hc, Bool.not_not]
      · rw [hkept' c hc, hkept c hc]
    · exact hframe.trans hframe' p (by simpa [hfb] using hp)
  · intro hflag
    by_contra hnone
    have hall : ∀ c, OpaqueCell s (s.reg x).toNat (s.reg y).toNat n.toNat c → t.fb[c] = false := fun c hc => by
      rw [htoggled c hc]
      simpa using fun hunset => hnone ⟨c, hc, hunset⟩
    simp [hmiss hall] at hflag
  · rintro ⟨c, hc, hunset⟩
    exact hhit ⟨c, hc, by rw [htoggled c hc, hunset]; rfl⟩

/-! ### Keys (spec/44_keys_timers.md sections 2 and 3) -/

theorem execSkp_key {x : RegIx} {s : State} {k : Fin 16} (hk : (s.reg x).toNat = k.val) :
    execSkp x s = .next (s.skipIf s.key[k]) := by
  rcases execSkp_cases x s with ⟨h, -⟩ | ⟨-, h⟩
  · rw [h, hk, State.keyLevel_fin]
  · omega

theorem execSknp_key {x : RegIx} {s : State} {k : Fin 16} (hk : (s.reg x).toNat = k.val) :
    execSknp x s = .next (s.skipIf (!s.key[k])) := by
  rcases execSknp_cases x s with ⟨h, -⟩ | ⟨-, h⟩
  · rw [h, hk, State.keyLevel_fin]
  · omega

theorem execSkp_noKey {x : RegIx} {s : State} (h : 15 < (s.reg x).toNat) :
    execSkp x s = .next (s.takeFault (.keyIndex (s.reg x))) := by
  rcases execSkp_cases x s with ⟨-, h'⟩ | ⟨h', -⟩
  · omega
  · exact h'

theorem execSknp_noKey {x : RegIx} {s : State} (h : 15 < (s.reg x).toNat) :
    execSknp x s = .next (s.takeFault (.keyIndex (s.reg x))) := by
  rcases execSknp_cases x s with ⟨-, h'⟩ | ⟨h', -⟩
  · omega
  · exact h'

/-- Settles O48: the two are skips on opposite levels of the key, and share their fault. -/
theorem keySkipsOrFault : Obligations.KeySkipsOrFault := by
  intro s x
  refine ⟨fun k hk => ⟨⟨_, execSkp_key hk, s.skipIf_pc _, s.sameBut_skipIf _⟩,
      ⟨_, execSknp_key hk, ?_, s.sameBut_skipIf _⟩⟩,
    fun h => ⟨⟨_, execSkp_noKey h, takeFault_raises s _⟩, ⟨_, execSknp_noKey h, takeFault_raises s _⟩⟩⟩
  rw [State.skipIf_pc]
  cases s.key[k] <;> rfl

/-- Settles O49: the key that the instruction takes and the key that is least are the same, since each is not below the other. -/
theorem keyWaitTakesTheLeastKeyOrHalts : Obligations.KeyWaitTakesTheLeastKeyOrHalts := by
  intro s x
  refine ⟨fun k hset hleast => ?_, fun hunset => ?_⟩
  · rcases execLdVxK_cases x s with ⟨j, h, hset', hleast'⟩ | ⟨-, hunset⟩
    · have hj : j = k := by
        refine le_antisymm (le_of_not_gt fun hlt => ?_) (le_of_not_gt fun hlt => ?_)
        · simp [hleast' k hlt] at hset
        · simp [hleast j hlt] at hset'
      subst hj
      refine ⟨_, h, ?_, s.setReg_next_frame x _⟩
      rw [State.next_reg, State.reg_setReg_same, BitVec.toNat_ofNat]
      omega
    · simp [hunset k] at hset
  · rcases execLdVxK_cases x s with ⟨j, -, hset, -⟩ | ⟨h, -⟩
    · simp [hunset j] at hset
    · exact h

end Sys2Proof.Machine
